-- ==== Sys2Proof/Word.lean ====
section
/-! DEFINITION. The value types of the block (00_scope.md R8, R11; 10_state.md R30). -/

namespace Sys2Proof

/-- A polynomial register's value: the coefficients of a polynomial of degree at most 32, bit `i` being the
coefficient of `x^i` (10_state.md R31). -/
abbrev Poly := BitVec 33

/-- A 32-bit value: a CRC value, a delta, a command word, a word of the register window (00_scope.md R8). -/
abbrev Word := BitVec 32

/-- One byte of the byte stream or of the patch window (00_scope.md R11). -/
abbrev Byte := BitVec 8

/-- The number of a polynomial register, naming P0 to P7 (30_encoding.md R92). -/
abbrev Reg := Fin 8

end Sys2Proof
end

