-- ==== Sys2Proof/Config.lean ====
section
/-! DEFINITION. The implementation parameters of 00_scope.md R8 that the model's files name. No parameter is a free
value: 93_implementation_defined.md leaves no value of the block open. The one open parameter, BASE, is the field
`basePage` of the state (log entry 3). The hardware constants of 10_state.md R42 stand in Machine/Constants.lean. -/

namespace Sys2Proof.Config

/-- The size of the host register window in bytes (20_memory.md R60). -/
def windowSize : Nat := 256

/-- The number of polynomial registers, P0 to P7 (10_state.md R31). -/
def polyRegCount : Nat := 8

/-- The number of bytes of the patch window (10_state.md R36). -/
def patchWindowBytes : Nat := 4

end Sys2Proof.Config
end

