-- ==== Sys2Proof/Syntax.lean ====
section
/-! DEFINITION. The commands of the GF2CRC command set, edition 1 (30_encoding.md R95): one constructor per row of
the opcode table, with the fields its format names (30_encoding.md R94). -/

namespace Sys2Proof

/-- A command with its field values. The operands stand in the order of the format's assembly operands
(30_encoding.md R94, R101). -/
inductive Instr where
  /-- No operation (40_data.md R120). -/
  | nop
  /-- Load an immediate byte (40_data.md R121). -/
  | ldi (rd : Reg) (imm8 : Byte)
  /-- Load the generator polynomial (40_data.md R122). -/
  | ldg (rd : Reg)
  /-- Add two polynomials (40_data.md R123). -/
  | padd (rd rs1 rs2 : Reg)
  /-- Degree of a polynomial (41_gf2_arith.md R150). -/
  | deg (rd rs1 : Reg)
  /-- Divide: `rd` the quotient, `rd2` the remainder, `rs1` the dividend, `rs2` the divisor
  (41_gf2_arith.md R151). -/
  | divr (rd rd2 rs1 rs2 : Reg)
  /-- Multiply modulo G (41_gf2_arith.md R152). -/
  | mulm (rd rs1 rs2 : Reg)
  /-- Power modulo G: `rs1` the base, `rs2` the exponent (41_gf2_arith.md R153). -/
  | powm (rd rs1 rs2 : Reg)
  /-- Reciprocal modulo G (41_gf2_arith.md R154). -/
  | recip (rd rs1 : Reg)
  /-- Start a new CRC (42_crc_engine.md R180). -/
  | crcinit
  /-- Fold one immediate byte (42_crc_engine.md R181). -/
  | crcbi (imm8 : Byte)
  /-- Fold the four bytes of a register (42_crc_engine.md R182). -/
  | crcw (rs1 : Reg)
  /-- Load the accumulator (42_crc_engine.md R183). -/
  | crcset (rs1 : Reg)
  /-- Read the CRC in the forward domain (42_crc_engine.md R184). -/
  | crcrd (rd : Reg)
  /-- Read the CRC in the conventional domain (42_crc_engine.md R185). -/
  | crcraw (rd : Reg)
  /-- Reverse the 32 bits of a value (42_crc_engine.md R186). -/
  | rev32 (rd rs1 : Reg)
  /-- Compute the patch delta: `rs1` the original CRC, `rs2` the target CRC, `rs3` the tail-bit count
  (43_patch.md R209). -/
  | delta (rd rs1 rs2 rs3 : Reg)
  /-- XOR a delta into the patch window (43_patch.md R210). -/
  | apply (rs1 : Reg)
  /-- Load the patch window from a register (43_patch.md R211). -/
  | winld (rs1 : Reg)
  /-- Read the patch window into a register (43_patch.md R212). -/
  | winrd (rd : Reg)
deriving DecidableEq, Repr

end Sys2Proof
end

