-- ==== Sys2Proof/WellFormed.lean ====
section
/-! DEFINITION. Which terms of `Instr` are commands. Register numbers and immediates are in range by their types
(30_encoding.md R92, R93); the one check left is DIVR's two destinations (30_encoding.md R97). -/

namespace Sys2Proof

/-- A DIVR's quotient and remainder go to two different registers (30_encoding.md R97); every other term is a
command. -/
def Instr.wellFormed : Instr → Bool
  | .divr rd rd2 _ _ => rd != rd2
  | .nop | .ldi _ _ | .ldg _ | .padd _ _ _ | .deg _ _ | .mulm _ _ _ | .powm _ _ _ | .recip _ _
  | .crcinit | .crcbi _ | .crcw _ | .crcset _ | .crcrd _ | .crcraw _ | .rev32 _ _
  | .delta _ _ _ _ | .apply _ | .winld _ | .winrd _ => true

end Sys2Proof
end

