-- ==== Sys2Proof/Decode.lean ====
section
/-! DEFINITION. Decoding a command word and encoding a command (30_encoding.md R90 to R97). -/

namespace Sys2Proof

/-- The nine formats (30_encoding.md R94). -/
inductive Format where
  | n | ri | r | s | i | rr | rrr | dd | rrrr
deriving DecidableEq, Repr

/-- Why a word is no command. All three are the one error IllegalCommand (30_encoding.md R98). -/
inductive IllegalWord where
  /-- The OP field is one of the unassigned values of 30_encoding.md R95. -/
  | unassignedOpcode
  /-- A bit that the row's mask fixes differs from the row's match (30_encoding.md R96). -/
  | mustBeZeroSet
  /-- A DIVR word with equal rd and rd2 (30_encoding.md R97). -/
  | sameDestination
deriving DecidableEq, Repr

/-- The mask of each format: the bits that must equal the opcode's match (30_encoding.md R94). -/
def Format.mask : Format → Word
  | .n    => 0xFFFFFFFF#32
  | .ri   => 0xFF1FFF00#32
  | .r    => 0xFF1FFFFF#32
  | .s    => 0xFFE3FFFF#32
  | .i    => 0xFFFFFF00#32
  | .rr   => 0xFF03FFFF#32
  | .rrr  => 0xFF007FFF#32
  | .dd   => 0xFF000FFF#32
  | .rrrr => 0xFF000FFF#32

/-- The OP field, bits 31:24 (30_encoding.md R91). -/
def opField (w : Word) : BitVec 8 := w.extractLsb' 24 8

/-- A 3-bit register field whose lowest bit is bit `lo` (30_encoding.md R91, R92). -/
def regField (w : Word) (lo : Nat) : Reg := Fin.ofNat 8 (w.extractLsb' lo 3).toNat

/-- The rd field, bits 23:21 (30_encoding.md R91). -/
def rdField (w : Word) : Reg := regField w 21

/-- The rs1 field, bits 20:18 (30_encoding.md R91). -/
def rs1Field (w : Word) : Reg := regField w 18

/-- The rs2 field, bits 17:15 (30_encoding.md R91). -/
def rs2Field (w : Word) : Reg := regField w 15

/-- The field of bits 14:12: rs3 of DELTA, rd2 of DIVR (30_encoding.md R91). -/
def rs3Field (w : Word) : Reg := regField w 12

/-- The imm8 field, bits 7:0 (30_encoding.md R91). -/
def imm8Field (w : Word) : Byte := w.extractLsb' 0 8

/-- A row of the opcode map: the OP value, the format, and the command that the fields rd, rs1, rs2, rs3 (which is
also rd2) and imm8 make (30_encoding.md R95). -/
structure OpcodeRow where
  op : BitVec 8
  format : Format
  build : Reg → Reg → Reg → Reg → Byte → Instr

/-- The match value of a row, `OP << 24` (30_encoding.md R95). -/
def OpcodeRow.matchWord (row : OpcodeRow) : Word := row.op ++ (0#24)

/-- The opcode map (30_encoding.md R95). -/
def opcodeTable : List OpcodeRow :=
  [ ⟨0x00#8, .n,    fun _ _ _ _ _ => .nop⟩,
    ⟨0x01#8, .ri,   fun rd _ _ _ imm8 => .ldi rd imm8⟩,
    ⟨0x02#8, .r,    fun rd _ _ _ _ => .ldg rd⟩,
    ⟨0x03#8, .rrr,  fun rd rs1 rs2 _ _ => .padd rd rs1 rs2⟩,
    ⟨0x10#8, .rr,   fun rd rs1 _ _ _ => .deg rd rs1⟩,
    ⟨0x11#8, .dd,   fun rd rs1 rs2 rd2 _ => .divr rd rd2 rs1 rs2⟩,
    ⟨0x12#8, .rrr,  fun rd rs1 rs2 _ _ => .mulm rd rs1 rs2⟩,
    ⟨0x13#8, .rrr,  fun rd rs1 rs2 _ _ => .powm rd rs1 rs2⟩,
    ⟨0x14#8, .rr,   fun rd rs1 _ _ _ => .recip rd rs1⟩,
    ⟨0x20#8, .n,    fun _ _ _ _ _ => .crcinit⟩,
    ⟨0x21#8, .i,    fun _ _ _ _ imm8 => .crcbi imm8⟩,
    ⟨0x22#8, .s,    fun _ rs1 _ _ _ => .crcw rs1⟩,
    ⟨0x23#8, .s,    fun _ rs1 _ _ _ => .crcset rs1⟩,
    ⟨0x24#8, .r,    fun rd _ _ _ _ => .crcrd rd⟩,
    ⟨0x25#8, .r,    fun rd _ _ _ _ => .crcraw rd⟩,
    ⟨0x26#8, .rr,   fun rd rs1 _ _ _ => .rev32 rd rs1⟩,
    ⟨0x30#8, .rrrr, fun rd rs1 rs2 rs3 _ => .delta rd rs1 rs2 rs3⟩,
    ⟨0x31#8, .s,    fun _ rs1 _ _ _ => .apply rs1⟩,
    ⟨0x32#8, .s,    fun _ rs1 _ _ _ => .winld rs1⟩,
    ⟨0x33#8, .r,    fun rd _ _ _ _ => .winrd rd⟩ ]

/-- Decode, in the order of checks of 30_encoding.md R96: the row of the word's OP, the bits the mask fixes, DIVR's
destinations. -/
def decode (w : Word) : Except IllegalWord Instr :=
  match opcodeTable.find? (fun row => row.op == opField w) with
  | none => .error .unassignedOpcode
  | some row =>
    if w &&& row.format.mask ≠ row.matchWord then .error .mustBeZeroSet
    else
      let i := row.build (rdField w) (rs1Field w) (rs2Field w) (rs3Field w) (imm8Field w)
      if i.wellFormed then .ok i else .error .sameDestination

/-- A register number as the 3 bits of its field (30_encoding.md R91). -/
def regBits (r : Reg) : BitVec 3 := BitVec.ofNat 3 r.val

/-- The word with the given fields and the four must-be-zero bits 11:8 clear (30_encoding.md R91). -/
def encodeFields (op : BitVec 8) (rd rs1 rs2 rs3 : Reg) (imm8 : Byte) : Word :=
  op ++ regBits rd ++ regBits rs1 ++ regBits rs2 ++ regBits rs3 ++ (0#4) ++ imm8

/-- The word of a command: its opcode and its fields, every other field zero (30_encoding.md R94, R95). -/
def encode : Instr → Word
  | .nop                   => encodeFields 0x00#8 0 0 0 0 0#8
  | .ldi rd imm8           => encodeFields 0x01#8 rd 0 0 0 imm8
  | .ldg rd                => encodeFields 0x02#8 rd 0 0 0 0#8
  | .padd rd rs1 rs2       => encodeFields 0x03#8 rd rs1 rs2 0 0#8
  | .deg rd rs1            => encodeFields 0x10#8 rd rs1 0 0 0#8
  | .divr rd rd2 rs1 rs2   => encodeFields 0x11#8 rd rs1 rs2 rd2 0#8
  | .mulm rd rs1 rs2       => encodeFields 0x12#8 rd rs1 rs2 0 0#8
  | .powm rd rs1 rs2       => encodeFields 0x13#8 rd rs1 rs2 0 0#8
  | .recip rd rs1          => encodeFields 0x14#8 rd rs1 0 0 0#8
  | .crcinit               => encodeFields 0x20#8 0 0 0 0 0#8
  | .crcbi imm8            => encodeFields 0x21#8 0 0 0 0 imm8
  | .crcw rs1              => encodeFields 0x22#8 0 rs1 0 0 0#8
  | .crcset rs1            => encodeFields 0x23#8 0 rs1 0 0 0#8
  | .crcrd rd              => encodeFields 0x24#8 rd 0 0 0 0#8
  | .crcraw rd             => encodeFields 0x25#8 rd 0 0 0 0#8
  | .rev32 rd rs1          => encodeFields 0x26#8 rd rs1 0 0 0#8
  | .delta rd rs1 rs2 rs3  => encodeFields 0x30#8 rd rs1 rs2 rs3 0#8
  | .apply rs1             => encodeFields 0x31#8 0 rs1 0 0 0#8
  | .winld rs1             => encodeFields 0x32#8 0 rs1 0 0 0#8
  | .winrd rd              => encodeFields 0x33#8 rd 0 0 0 0#8

/-- The command word whose lowest `nbits` bits are those of `w` and whose other bits are 0. A command is one 32-bit
word (30_encoding.md R90), so no second word follows. -/
def tableWord (nbits w : Nat) : Word := BitVec.ofNat 32 (w % 2 ^ nbits)

/-- What `decode` reads from the word that the opcode table numbers as `w`. -/
def decodeTableWord (nbits w : Nat) : Option Instr := (decode (tableWord nbits w)).toOption

end Sys2Proof
end

