-- ==== Sys2Proof/Machine/Constants.lean ====
section
/-! DEFINITION. The hardware constants, which are not state (10_state.md R42). -/

namespace Sys2Proof.Machine

/-- The generator polynomial G as a natural number, of degree 32 (00_scope.md R9; 10_state.md R42). -/
def gNat : Nat := 0x104C11DB7

/-- The generator polynomial G as a register's value (10_state.md R42). -/
def genPoly : Poly := BitVec.ofNat 33 gNat

/-- The reflected CRC polynomial REFPOLY (10_state.md R42). -/
def refPoly : Word := 0xEDB88320#32

/-- CRC_INIT, the shift register's value before the first byte (10_state.md R42, R35). -/
def crcInit : Word := 0xFFFFFFFF#32

/-- CRC_XOROUT, the final XOR (10_state.md R42, R35). -/
def crcXorOut : Word := 0xFFFFFFFF#32

/-- NODEG, what DEG reports for the zero polynomial (10_state.md R42; 41_gf2_arith.md R150). -/
def noDegree : Poly := 0x1FFFFFFFF#33

end Sys2Proof.Machine
end

