-- ==== Sys2Proof/Machine/State.lean ====
section
/-! DEFINITION. The state of the block (10_state.md R30), the events of its bus, the reasons a step can stop, and the
state after reset (10_state.md R46). -/

namespace Sys2Proof.Machine

/-- The error causes that the block raises (60_exceptions.md R232). Raising one is not a stop of the machine: it
writes STATUS and the block goes on (60_exceptions.md R230, R235). -/
inductive ErrorCause where
  /-- The word is no command (30_encoding.md R98). -/
  | illegalCommand
  /-- A 32-bit operand has bit 32 set (60_exceptions.md R233). -/
  | operandRange
  /-- The divisor is 0 (41_gf2_arith.md R141). -/
  | divisionByZero
  /-- The operand has no reciprocal modulo G (41_gf2_arith.md R145). -/
  | noReciprocal
deriving DecidableEq, Repr

/-- The width of a host access. Only the full 32-bit word is admitted (20_memory.md R61). -/
inductive AccessSize where
  | byte | half | word
deriving DecidableEq, Repr

/-- What can reach the block from outside: a host access at a byte address of the host's bus (20_memory.md R60, R61),
or the platform's reset signal (70_reset_and_hazards.md R260). -/
inductive BusEvent where
  | read (addr : Nat) (size : AccessSize)
  | write (addr : Nat) (size : AccessSize) (data : Word)
  | hardReset
deriving DecidableEq, Repr

/-- Why the machine stops with a fault. No command stops with one: the block's own errors are next states. -/
inductive Fault where
  /-- Raised by a host access at an address outside the 256-byte window, which the spec says the host never makes and
  which has no step (20_memory.md R61, R71). Safe: the model says nothing of what follows (log entry 4). -/
  | outsideWindow
deriving DecidableEq, Repr

/-- Why the machine refuses a step. No command is refused. -/
inductive Refusal where
  /-- Raised by an arm of `exec` whose instruction has no meaning yet. Safe; no arm answers it. -/
  | notModelled (mnemonic : String)
  /-- Raised by a byte or halfword access inside the window, which has no step (20_memory.md R61, R71). Safe (log
  entry 4). -/
  | narrowAccess
  /-- Raised by a word access inside the window at an offset that is no multiple of 4, which has no step
  (20_memory.md R61, R71). Safe (log entry 4). -/
  | misalignedAccess
deriving DecidableEq, Repr

/-- The state: the block's architectural state, which is the tuple of 10_state.md R30, and three fields of the
model's own, which hold the block's surroundings (`basePage`, `pending`, `replies`). -/
structure State where
  /-- The polynomial registers P0 to P7 (10_state.md R31). -/
  p : Vector Poly 8
  /-- The CRC accumulator ACC (10_state.md R34). -/
  acc : Word
  /-- The patch window WIN[0] to WIN[3] (10_state.md R36). -/
  win : Vector Byte 4
  /-- STATUS.ERR (10_state.md R37, R38). -/
  err : BitVec 4
  /-- STATUS.FAULT (10_state.md R37, R39). -/
  fault : Bool
  /-- STATUS.DROP (10_state.md R37, R40). -/
  drop : Bool
  /-- The model's own: the open parameter BASE is `256 * basePage`, so it is a multiple of 256 (20_memory.md R60; log
  entry 3). -/
  basePage : Nat
  /-- The model's own: the accesses and resets still to come, the earliest first (log entry 1). -/
  pending : List BusEvent
  /-- The model's own: the words that the host's reads have returned so far, the earliest first (log entry 2). -/
  replies : List Word
deriving DecidableEq, Repr

/-- The state after reset (10_state.md R46): every field of the block is 0. The model's own fields are at the values
of log entries 1, 2 and 3. -/
def State.reset : State where
  p := Vector.replicate 8 0#33
  acc := 0#32
  win := Vector.replicate 4 0#8
  err := 0#4
  fault := false
  drop := false
  basePage := 0
  pending := []
  replies := []

end Sys2Proof.Machine
end

