-- ==== Sys2Proof/Machine/Gf2.lean ====
section
/-! DEFINITION. The pure functions of the arithmetic units, on natural numbers read as polynomials over GF(2)
(00_scope.md R12; 41_gf2_arith.md R140 to R145). Each `while` loop of the spec is a structural recursion on a count of
iterations that the loop cannot exceed (41_gf2_arith.md R143 to R145; log entry 9). -/

namespace Sys2Proof.Machine

/-- The number of bits of `n`: one more than its degree, and 0 for 0. -/
def bitLen (n : Nat) : Nat := if n = 0 then 0 else n.log2 + 1

/-- The index of the highest set bit of `a ≠ 0` (41_gf2_arith.md R140). -/
def deg (a : Nat) : Nat := a.log2

/-- The first `n` partial products of `clmul`. -/
def clmulBits (a b : Nat) : Nat → Nat
  | 0 => 0
  | n + 1 => clmulBits a b n ^^^ (if b.testBit n then a <<< n else 0)

/-- The carry-less product: the XOR of `a << i` over the set bits `i` of `b` (00_scope.md R12). -/
def clmul (a b : Nat) : Nat := clmulBits a b (bitLen b)

/-- The iterations `i = n - 1 downto 0` of long division by `b` of degree `d`, from the quotient `q` and the dividend
`a` (41_gf2_arith.md R141). -/
def divremLoop (b d : Nat) : Nat → Nat → Nat → Nat × Nat
  | 0, q, a => (q, a)
  | i + 1, q, a =>
    if a.testBit (i + d) then divremLoop b d i (q ||| (1 <<< i)) (a ^^^ (b <<< i))
    else divremLoop b d i q a

/-- Long division by a divisor `b ≠ 0`: the quotient and the remainder (41_gf2_arith.md R141). The loop has no
iterations when the dividend's degree is below the divisor's. -/
def longDivide (a b : Nat) : Nat × Nat :=
  if a = 0 then (0, 0) else divremLoop b (deg b) (deg a + 1 - deg b) 0 a

/-- `divrem`, the divisor's check first, even for a zero dividend (41_gf2_arith.md R141; 90_conflicts.md C6). -/
def divrem (a b : Nat) : Except ErrorCause (Nat × Nat) :=
  if b = 0 then .error .divisionByZero else .ok (longDivide a b)

/-- `a mod_G`, the remainder of `a` by G, which never raises (41_gf2_arith.md R141). -/
def modG (a : Nat) : Nat := (longDivide a gNat).2

/-- `a << 1`, reduced by one XOR with G when its degree reaches 32 (41_gf2_arith.md R142). -/
def timesX (a : Nat) : Nat := if (a <<< 1).testBit 32 then (a <<< 1) ^^^ gNat else a <<< 1

/-- The loop of `mulm` (41_gf2_arith.md R142), at most the given number of iterations. -/
def mulmLoop : Nat → Nat → Nat → Nat → Nat
  | 0, _, _, z => z
  | n + 1, a, b, z =>
    if b = 0 then z else mulmLoop n (timesX a) (b >>> 1) (if b.testBit 0 then z ^^^ a else z)

/-- Shift-and-XOR multiplication modulo G (41_gf2_arith.md R142): one iteration per bit of `b`. -/
def mulm (a b : Nat) : Nat := mulmLoop (bitLen b) a b 0

/-- The loop of `powm` (41_gf2_arith.md R144), at most the given number of iterations. -/
def powmLoop : Nat → Nat → Nat → Nat → Nat
  | 0, _, _, z => z
  | n + 1, a, e, z =>
    if e = 0 then z else powmLoop n (mulm a a) (e >>> 1) (if e.testBit 0 then mulm z a else z)

/-- Square-and-multiply exponentiation modulo G (41_gf2_arith.md R144): one iteration per bit of `e`. -/
def powm (a e : Nat) : Nat := powmLoop (bitLen e) a e 1

/-- The loop of `recip` (41_gf2_arith.md R145), at most the given number of iterations: the final `x` and `s`. -/
def recipLoop : Nat → Nat → Nat → Nat → Nat → Nat × Nat
  | 0, x, _, s, _ => (x, s)
  | n + 1, x, y, s, t =>
    if y = 0 then (x, s)
    else recipLoop n y (longDivide x y).2 t (s ^^^ mulm (longDivide x y).1 t)

/-- The reciprocal of `a` modulo G by the spec's reference loop, or NoReciprocal (41_gf2_arith.md R145). The degree of
`y`, which starts as `a`, falls in every iteration. -/
def recip (a : Nat) : Except ErrorCause Nat :=
  let xs := recipLoop (bitLen a) gNat a 0 1
  if xs.1 = 1 then .ok xs.2 else .error .noReciprocal

end Sys2Proof.Machine
end

