-- ==== Sys2Proof/Machine/Crc32.lean ====
section
/-! DEFINITION. The pure functions of the CRC-32 datapath (42_crc_engine.md R170 to R174) and the bytes of a word
(20_memory.md R70). -/

namespace Sys2Proof.Machine

/-- Byte `j` of a word that holds four stream bytes: bits `8j+7` to `8j` (20_memory.md R70). -/
def byteOf (v : Word) (j : Nat) : Byte := v.extractLsb' (8 * j) 8

/-- Reverse the bit order of a word: bit `i` of the result is bit `31 - i` of `v` (42_crc_engine.md R170). -/
def rev32 (v : Word) : Word := v.reverse

/-- One step of the reflected shift register (42_crc_engine.md R171). -/
def crcShift (s : Word) : Word :=
  if s.getLsbD 0 then (s >>> 1) ^^^ refPoly else s >>> 1

/-- `n` steps of the reflected shift register (42_crc_engine.md R171). -/
def crcShifts : Nat → Word → Word
  | 0, s => s
  | n + 1, s => crcShifts n (crcShift s)

/-- Fold one byte into a conventional CRC value: undo the final XOR, let the byte enter at the low end, shift 8 times,
apply the final XOR (42_crc_engine.md R171). -/
def fold (acc : Word) (b : Byte) : Word :=
  crcShifts 8 ((acc ^^^ crcXorOut) ^^^ b.setWidth 32) ^^^ crcXorOut

/-- Fold the four bytes of a word, byte 0 first (42_crc_engine.md R175, R182). -/
def foldWord (acc v : Word) : Word :=
  fold (fold (fold (fold acc (byteOf v 0)) (byteOf v 1)) (byteOf v 2)) (byteOf v 3)

/-- The CRC-32 of a byte sequence in stream order, as a conventional value (42_crc_engine.md R172). -/
def crc (bytes : List Byte) : Word := bytes.foldl fold 0#32

/-- The CRC-32 of a byte sequence in the forward domain (42_crc_engine.md R174). -/
def forwardCrc (bytes : List Byte) : Word := rev32 (crc bytes)

end Sys2Proof.Machine
end

