-- ==== Sys2Proof/Machine/Flags.lean ====
section
/-! DEFINITION. The STATUS register's layout and the error codes (10_state.md R37; 60_exceptions.md R232). The block
has no condition flags, and no command sets a flag (10_state.md R44), so there is no other flag computation. -/

namespace Sys2Proof.Machine

/-- The code of an error in STATUS.ERR (60_exceptions.md R232). -/
def ErrorCause.code : ErrorCause → BitVec 4
  | .illegalCommand => 1#4
  | .operandRange   => 2#4
  | .divisionByZero => 3#4
  | .noReciprocal   => 4#4

/-- STATUS as a word: DROP at bit 9, FAULT at bit 8, ERR at bits 3:0, every other bit 0 (10_state.md R37;
20_memory.md R64). -/
def State.statusWord (s : State) : Word :=
  (0#22) ++ BitVec.ofBool s.drop ++ BitVec.ofBool s.fault ++ (0#4) ++ s.err

end Sys2Proof.Machine
end

