-- ==== Sys2Proof/Machine/Ops.lean ====
section
/-! DEFINITION. The named operations on the state: registers, accumulator, window, the taking of an error, the drop of
a command, reset, and the one operation by which a command takes effect (60_exceptions.md R230). -/

namespace Sys2Proof.Machine

/-- A 32-bit result zero-extended to a register's width (10_state.md R33). -/
def zext33 (v : Word) : Poly := v.setWidth 33

/-- Read polynomial register `r` in full 33 bits (00_scope.md R13). -/
def State.reg (s : State) (r : Reg) : Poly := s.p[r]

/-- Write polynomial register `r` in full 33 bits (00_scope.md R13; 10_state.md R32). -/
def State.setReg (s : State) (r : Reg) (v : Poly) : State := { s with p := s.p.set r.val v r.isLt }

/-- Write the CRC accumulator (10_state.md R34). -/
def State.setAcc (s : State) (v : Word) : State := { s with acc := v }

/-- Write the patch window (10_state.md R36). -/
def State.setWin (s : State) (w : Vector Byte 4) : State := { s with win := w }

/-- The window as one word, WIN[j] at bits `8j+7` to `8j` (20_memory.md R66, R70). -/
def State.winWord (s : State) : Word := s.win[3] ++ s.win[2] ++ s.win[1] ++ s.win[0]

/-- The four window bytes of a word, WIN[j] from bits `8j+7` to `8j` (20_memory.md R66, R70). -/
def windowOf (v : Word) : Vector Byte 4 := #v[byteOf v 0, byteOf v 1, byteOf v 2, byteOf v 3]

/-- Take an error, the block's only trap: ERR takes the code, FAULT becomes 1, and nothing else changes
(60_exceptions.md R230, R231, R235). -/
def State.raise (s : State) (e : ErrorCause) : State := { s with err := e.code, fault := true }

/-- Drop a command written in the fault state: only DROP changes (60_exceptions.md R236). -/
def State.dropCommand (s : State) : State := { s with drop := true }

/-- Reset the block, the only way out of the fault state: every field of 10_state.md R30 takes its reset value
(60_exceptions.md R237; 70_reset_and_hazards.md R261). The bus around the block is not the block's to reset. -/
def State.resetBlock (s : State) : State :=
  { State.reset with basePage := s.basePage, pending := s.pending, replies := s.replies }

/-- Execute a decoded command whose pseudocode, run on `s`, gives the state with its writes or the error it raises
(60_exceptions.md R230): dropped in the fault state, otherwise all its writes at once, or none and the error. -/
def runCommand (s : State) (effect : Except ErrorCause State) : Host.Outcome State Fault Refusal :=
  if s.fault then .next s.dropCommand
  else
    match effect with
    | .ok t => .next t
    | .error e => .next (s.raise e)

end Sys2Proof.Machine
end

