-- ==== Sys2Proof/Machine/Operands.lean ====
section
/-! DEFINITION. The operand forms of the commands: a register in full 33 bits, a 32-bit operand, the immediate byte
(00_scope.md R14; 60_exceptions.md R233; 30_encoding.md R93). -/

namespace Sys2Proof.Machine

/-- A source operand read in full 33 bits, never out of range (60_exceptions.md R233). -/
def operand33 (s : State) (r : Reg) : Poly := s.reg r

/-- A 32-bit operand: bits 31:0 of the register, or OperandRange when bit 32 is set (60_exceptions.md R233). -/
def operand32 (s : State) (r : Reg) : Except ErrorCause Word :=
  if (s.reg r).getLsbD 32 then .error .operandRange else .ok ((s.reg r).setWidth 32)

/-- The immediate byte zero-extended to a register's width (30_encoding.md R93). -/
def immediate33 (imm8 : Byte) : Poly := imm8.setWidth 33

end Sys2Proof.Machine
end

