-- ==== Sys2Proof/Machine/Arith.lean ====
section
/-! DEFINITION. The GF(2) arithmetic commands DEG, DIVR, MULM, POWM, RECIP (41_gf2_arith.md). -/

namespace Sys2Proof.Machine

/-- The result of DEG: the degree, or NODEG for the zero polynomial (41_gf2_arith.md R150). -/
def degreeResult (a : Poly) : Poly :=
  if a = 0#33 then noDegree else BitVec.ofNat 33 (deg a.toNat)

/-- DEG (41_gf2_arith.md R150). -/
def execDeg (rd rs1 : Reg) (s : State) : Host.Outcome State Fault Refusal :=
  runCommand s (.ok (s.setReg rd (degreeResult (operand33 s rs1))))

/-- DIVR: the quotient to `rd` and the remainder to `rd2`, both sources read first (41_gf2_arith.md R151). Equal
destinations are no command (30_encoding.md R97; log entry 8). -/
def execDivr (rd rd2 rs1 rs2 : Reg) (s : State) : Host.Outcome State Fault Refusal :=
  runCommand s <|
    if rd = rd2 then .error .illegalCommand
    else do
      let qr ← divrem (operand33 s rs1).toNat (operand33 s rs2).toNat
      return (s.setReg rd (BitVec.ofNat 33 qr.1)).setReg rd2 (BitVec.ofNat 33 qr.2)

/-- MULM (41_gf2_arith.md R152). -/
def execMulm (rd rs1 rs2 : Reg) (s : State) : Host.Outcome State Fault Refusal :=
  runCommand s do
    let a ← operand32 s rs1
    let b ← operand32 s rs2
    return s.setReg rd (zext33 (BitVec.ofNat 32 (mulm a.toNat b.toNat)))

/-- POWM: the base is a 32-bit operand, the exponent the whole register as an unsigned integer
(41_gf2_arith.md R153). -/
def execPowm (rd rs1 rs2 : Reg) (s : State) : Host.Outcome State Fault Refusal :=
  runCommand s do
    let a ← operand32 s rs1
    return s.setReg rd (zext33 (BitVec.ofNat 32 (powm a.toNat (operand33 s rs2).toNat)))

/-- RECIP: OperandRange is checked before NoReciprocal (41_gf2_arith.md R154). -/
def execRecip (rd rs1 : Reg) (s : State) : Host.Outcome State Fault Refusal :=
  runCommand s do
    let a ← operand32 s rs1
    let r ← recip a.toNat
    return s.setReg rd (zext33 (BitVec.ofNat 32 r))

end Sys2Proof.Machine
end

