-- ==== Sys2Proof/Machine/CrcEngine.lean ====
section
/-! DEFINITION. The CRC-32 datapath's commands CRCINIT, CRCBI, CRCW, CRCSET, CRCRD, CRCRAW, REV32
(42_crc_engine.md). -/

namespace Sys2Proof.Machine

/-- CRCINIT: the CRC of the empty stream (42_crc_engine.md R180). -/
def execCrcinit (s : State) : Host.Outcome State Fault Refusal :=
  runCommand s (.ok (s.setAcc 0#32))

/-- CRCBI: fold the immediate byte (42_crc_engine.md R181). -/
def execCrcbi (imm8 : Byte) (s : State) : Host.Outcome State Fault Refusal :=
  runCommand s (.ok (s.setAcc (fold s.acc imm8)))

/-- CRCW: fold the four bytes of a 32-bit operand, byte 0 first (42_crc_engine.md R182). -/
def execCrcw (rs1 : Reg) (s : State) : Host.Outcome State Fault Refusal :=
  runCommand s do
    let v ← operand32 s rs1
    return s.setAcc (foldWord s.acc v)

/-- CRCSET: load the accumulator with a conventional value (42_crc_engine.md R183). -/
def execCrcset (rs1 : Reg) (s : State) : Host.Outcome State Fault Refusal :=
  runCommand s do
    let v ← operand32 s rs1
    return s.setAcc v

/-- CRCRD: the forward value (42_crc_engine.md R184). -/
def execCrcrd (rd : Reg) (s : State) : Host.Outcome State Fault Refusal :=
  runCommand s (.ok (s.setReg rd (zext33 (rev32 s.acc))))

/-- CRCRAW: the conventional value (42_crc_engine.md R185). -/
def execCrcraw (rd : Reg) (s : State) : Host.Outcome State Fault Refusal :=
  runCommand s (.ok (s.setReg rd (zext33 s.acc)))

/-- REV32 (42_crc_engine.md R186). -/
def execRev32 (rd rs1 : Reg) (s : State) : Host.Outcome State Fault Refusal :=
  runCommand s do
    let v ← operand32 s rs1
    return s.setReg rd (zext33 (rev32 v))

end Sys2Proof.Machine
end

