-- ==== Sys2Proof/Machine/Data.lean ====
section
/-! DEFINITION. The data commands NOP, LDI, LDG, PADD (40_data.md). -/

namespace Sys2Proof.Machine

/-- NOP: no state changes (40_data.md R120). -/
def execNop (s : State) : Host.Outcome State Fault Refusal :=
  runCommand s (.ok s)

/-- LDI: the immediate byte, zero-extended (40_data.md R121). -/
def execLdi (rd : Reg) (imm8 : Byte) (s : State) : Host.Outcome State Fault Refusal :=
  runCommand s (.ok (s.setReg rd (immediate33 imm8)))

/-- LDG: the generator polynomial (40_data.md R122). -/
def execLdg (rd : Reg) (s : State) : Host.Outcome State Fault Refusal :=
  runCommand s (.ok (s.setReg rd genPoly))

/-- PADD: the 33-bit XOR of two registers (40_data.md R123). -/
def execPadd (rd rs1 rs2 : Reg) (s : State) : Host.Outcome State Fault Refusal :=
  runCommand s (.ok (s.setReg rd (operand33 s rs1 ^^^ operand33 s rs2)))

end Sys2Proof.Machine
end

