-- ==== Sys2Proof/Machine/PatchCalc.lean ====
section
/-! DEFINITION. The pure functions of the patch calculator (43_patch.md R200, R201). -/

namespace Sys2Proof.Machine

/-- The patch delta for the forward CRC `o`, the forward target `t` and the tail-bit count `k`
(43_patch.md R200). The error of `recip` is kept as in the spec's pseudocode (43_patch.md R209). -/
def delta (o t : Word) (k : Nat) : Except ErrorCause Word :=
  match recip (powm 2 k) with
  | .ok r => .ok (BitVec.ofNat 32 (mulm r (o ^^^ t).toNat))
  | .error e => .error e

/-- The four bytes that a delta XORs into the patch window: byte `i` is bits `8i+7` to `8i` of the reversed delta
(43_patch.md R201). -/
def patchBytes (d : Word) : Vector Byte 4 :=
  #v[byteOf (rev32 d) 0, byteOf (rev32 d) 1, byteOf (rev32 d) 2, byteOf (rev32 d) 3]

/-- XOR two windows byte by byte (43_patch.md R202, R210). -/
def xorWindow (w v : Vector Byte 4) : Vector Byte 4 := Vector.zipWith (· ^^^ ·) w v

end Sys2Proof.Machine
end

