-- ==== Sys2Proof/Machine/Patch.lean ====
section
/-! DEFINITION. The patch calculator's commands DELTA, APPLY, WINLD, WINRD (43_patch.md). -/

namespace Sys2Proof.Machine

/-- DELTA: the original and target CRC are 32-bit operands, the tail-bit count is the whole register
(43_patch.md R209). -/
def execDelta (rd rs1 rs2 rs3 : Reg) (s : State) : Host.Outcome State Fault Refusal :=
  runCommand s do
    let o ← operand32 s rs1
    let t ← operand32 s rs2
    let d ← delta o t (operand33 s rs3).toNat
    return s.setReg rd (zext33 d)

/-- APPLY: XOR the delta's patch bytes into the window (43_patch.md R210). -/
def execApply (rs1 : Reg) (s : State) : Host.Outcome State Fault Refusal :=
  runCommand s do
    let d ← operand32 s rs1
    return s.setWin (xorWindow s.win (patchBytes d))

/-- WINLD: WIN[0] from bits 7:0 up to WIN[3] from bits 31:24 (43_patch.md R211). -/
def execWinld (rs1 : Reg) (s : State) : Host.Outcome State Fault Refusal :=
  runCommand s do
    let v ← operand32 s rs1
    return s.setWin (windowOf v)

/-- WINRD: the window as one zero-extended word (43_patch.md R212). -/
def execWinrd (rd : Reg) (s : State) : Host.Outcome State Fault Refusal :=
  runCommand s (.ok (s.setReg rd (zext33 s.winWord)))

end Sys2Proof.Machine
end

