-- ==== Sys2Proof/Machine/Dispatch.lean ====
section
/-! DEFINITION. The meaning of each command, one arm per constructor (60_exceptions.md R230). -/

namespace Sys2Proof.Machine

def exec (i : Instr) (s : State) : Host.Outcome State Fault Refusal :=
  match i with
  | .nop => Sys2Proof.Machine.execNop s
  | .ldi rd imm8 => Sys2Proof.Machine.execLdi rd imm8 s
  | .ldg rd => Sys2Proof.Machine.execLdg rd s
  | .padd rd rs1 rs2 => Sys2Proof.Machine.execPadd rd rs1 rs2 s
  | .deg rd rs1 => Sys2Proof.Machine.execDeg rd rs1 s
  | .divr rd rd2 rs1 rs2 => Sys2Proof.Machine.execDivr rd rd2 rs1 rs2 s
  | .mulm rd rs1 rs2 => Sys2Proof.Machine.execMulm rd rs1 rs2 s
  | .powm rd rs1 rs2 => Sys2Proof.Machine.execPowm rd rs1 rs2 s
  | .recip rd rs1 => Sys2Proof.Machine.execRecip rd rs1 s
  | .crcinit => Sys2Proof.Machine.execCrcinit s
  | .crcbi imm8 => Sys2Proof.Machine.execCrcbi imm8 s
  | .crcw rs1 => Sys2Proof.Machine.execCrcw rs1 s
  | .crcset rs1 => Sys2Proof.Machine.execCrcset rs1 s
  | .crcrd rd => Sys2Proof.Machine.execCrcrd rd s
  | .crcraw rd => Sys2Proof.Machine.execCrcraw rd s
  | .rev32 rd rs1 => Sys2Proof.Machine.execRev32 rd rs1 s
  | .delta rd rs1 rs2 rs3 => Sys2Proof.Machine.execDelta rd rs1 rs2 rs3 s
  | .apply rs1 => Sys2Proof.Machine.execApply rs1 s
  | .winld rs1 => Sys2Proof.Machine.execWinld rs1 s
  | .winrd rd => Sys2Proof.Machine.execWinrd rd s

end Sys2Proof.Machine
end

