-- ==== Sys2Proof/Machine/Window.lean ====
section
/-! DEFINITION. The host register window (20_memory.md R60 to R69), the execution of a command word
(60_exceptions.md R230), and what one bus event does. -/

namespace Sys2Proof.Machine

/-- The registers of the window (20_memory.md R62). -/
inductive WindowReg where
  | ctrl | status | cmd | win | acc
  | polyLo (n : Reg)
  | polyHi (n : Reg)
  | reserved
deriving DecidableEq, Repr

/-- The window register at a byte offset that is a multiple of 4 (20_memory.md R62): PnLO at `0x20 + 8n`, PnHI at
`0x24 + 8n`. -/
def windowReg (off : Nat) : WindowReg :=
  if off = 0x00 then .ctrl
  else if off = 0x04 then .status
  else if off = 0x08 then .cmd
  else if off = 0x0C then .win
  else if off = 0x10 then .acc
  else if 0x20 ≤ off ∧ off < 0x60 then
    if off % 8 = 0 then .polyLo (Fin.ofNat 8 ((off - 0x20) / 8)) else .polyHi (Fin.ofNat 8 ((off - 0x20) / 8))
  else .reserved

/-- `HostRead(off)` (20_memory.md R63 to R69): the value that a read returns. Reads change nothing
(20_memory.md R73). -/
def hostRead (off : Nat) (s : State) : Word :=
  match windowReg off with
  | .ctrl => 0#32
  | .status => s.statusWord
  | .cmd => 0#32
  | .win => s.winWord
  | .acc => s.acc
  | .polyLo n => (s.reg n).setWidth 32
  | .polyHi n => (BitVec.ofBool ((s.reg n).getLsbD 32)).setWidth 32
  | .reserved => 0#32

/-- `Exec(w)` (60_exceptions.md R230): in the fault state the word is dropped undecoded, an illegal word raises
IllegalCommand, and a command runs. -/
def execWord (w : Word) (s : State) : Host.Outcome State Fault Refusal :=
  if s.fault then .next s.dropCommand
  else
    match decode w with
    | .error _ => .next (s.raise .illegalCommand)
    | .ok i => exec i s

/-- A PnLO write: bits 31:0 take the word and bit 32 is kept (20_memory.md R68). -/
def withLow (x : Poly) (v : Word) : Poly := x.extractLsb' 32 1 ++ v

/-- A PnHI write: bit 32 takes bit 0 of the word and bits 31:0 are kept (20_memory.md R68). -/
def withHigh (x : Poly) (v : Word) : Poly := v.extractLsb' 0 1 ++ x.extractLsb' 0 32

/-- `HostWrite(off, v)` (20_memory.md R63 to R69). -/
def hostWrite (off : Nat) (v : Word) (s : State) : Host.Outcome State Fault Refusal :=
  match windowReg off with
  | .ctrl => if v.getLsbD 0 then .next s.resetBlock else .next s
  | .status => .next s
  | .cmd => execWord v s
  | .win => .next (s.setWin (windowOf v))
  | .acc => .next s
  | .polyLo n => .next (s.setReg n (withLow (s.reg n) v))
  | .polyHi n => .next (s.setReg n (withHigh (s.reg n) v))
  | .reserved => .next s

/-- BASE, the byte address of the window on the host's bus (20_memory.md R60). -/
def State.base (s : State) : Nat := Config.windowSize * s.basePage

/-- Run the access `k` at the window offset of `addr` if the access is admitted: a full word, inside the window, at a
multiple of 4 (20_memory.md R61). Any other access has no step (20_memory.md R71; log entry 4). -/
def admitAccess (s : State) (addr : Nat) (size : AccessSize) (k : Nat → Host.Outcome State Fault Refusal) :
    Host.Outcome State Fault Refusal :=
  if addr < s.base ∨ s.base + Config.windowSize ≤ addr then .fault .outsideWindow
  else if size ≠ .word then .refused .narrowAccess
  else if (addr - s.base) % 4 ≠ 0 then .refused .misalignedAccess
  else k (addr - s.base)

/-- One bus event at the state `s`: a read returns its word to the host, a write acts on the window, a hardware reset
resets the block (20_memory.md R61; 70_reset_and_hazards.md R260). -/
def runEvent (e : BusEvent) (s : State) : Host.Outcome State Fault Refusal :=
  match e with
  | .read addr size =>
    admitAccess s addr size (fun off => .next { s with replies := s.replies ++ [hostRead off s] })
  | .write addr size data => admitAccess s addr size (fun off => hostWrite off data s)
  | .hardReset => .next s.resetBlock

/-- The host's write of a command word to CMD (20_memory.md R65). -/
def commandWrite (s : State) (w : Word) : BusEvent := .write (s.base + 0x08) .word w

end Sys2Proof.Machine
end

