-- ==== Sys2Proof/Machine/Step.lean ====
section
/-! DEFINITION. One step of the machine, and how a command word is put before it. -/

namespace Sys2Proof.Machine

/-- One step: the earliest pending bus event, whole (20_memory.md R72). With none pending the block is idle and holds
its state (60_exceptions.md R245; log entry 5). -/
def step (s : State) : Host.Outcome State Fault Refusal :=
  match s.pending with
  | [] => .next s
  | e :: rest => runEvent e { s with pending := rest }

/-- `s` with the host's write of the given word to CMD as its next bus event (log entry 6). -/
def State.withFetchWord (s : State) (nbits w : Nat) : State :=
  { s with pending := commandWrite s (tableWord nbits w) :: s.pending }

end Sys2Proof.Machine
end

