-- ==== Sys2Proof/Safety.lean ====
section
/-! DEFINITION. What counts as a well-behaved state and a well-behaved host, in the terms the statements use. -/

namespace Sys2Proof.Machine

/-- STATUS is coherent: ERR is one of the codes 0 to 4, it is nonzero exactly when FAULT is 1 (10_state.md R38), and
DROP is set only in the fault state (10_state.md R40; 60_exceptions.md R236, R237). -/
abbrev State.statusCoherent (s : State) : Prop :=
  s.err ≤ 4#4 ∧ (s.err ≠ 0#4 ↔ s.fault = true) ∧ (s.drop = true → s.fault = true)

/-- The bus address of a host access whose window offset is a multiple of 4 in 0x00 to 0xFC (20_memory.md R61). -/
abbrev State.admitsAddress (s : State) (addr : Nat) : Prop :=
  s.base ≤ addr ∧ addr < s.base + Config.windowSize ∧ (addr - s.base) % 4 = 0

/-- An event that the host and the platform may make: a full word access at an admitted address, or a hardware reset
(20_memory.md R61; 70_reset_and_hazards.md R260). -/
abbrev State.admitsEvent (s : State) : BusEvent → Prop
  | .read addr size => size = .word ∧ s.admitsAddress addr
  | .write addr size _ => size = .word ∧ s.admitsAddress addr
  | .hardReset => True

/-- Every event still to come is one that the host and the platform may make (20_memory.md R71: the host is assumed
never to make another access). -/
abbrev State.hostObeysRules (s : State) : Prop := ∀ e ∈ s.pending, s.admitsEvent e

/-- An event that resets the block: the platform's reset, or a write to CTRL with bit 0 set
(70_reset_and_hazards.md R260). -/
abbrev State.isResetEvent (s : State) : BusEvent → Prop
  | .hardReset => True
  | .write addr size v => size = .word ∧ addr = s.base ∧ v.getLsbD 0 = true
  | .read _ _ => False

/-- The block's fields of two states agree: P, ACC, WIN, ERR, FAULT and DROP (10_state.md R30). -/
abbrev State.sameBlock (s t : State) : Prop :=
  t.p = s.p ∧ t.acc = s.acc ∧ t.win = s.win ∧ t.err = s.err ∧ t.fault = s.fault ∧ t.drop = s.drop

/-- The fields around the block agree: BASE, the events still to come, the words read so far (log entries 1 to 3). -/
abbrev State.sameBus (s t : State) : Prop :=
  t.basePage = s.basePage ∧ t.pending = s.pending ∧ t.replies = s.replies

/-- The STATUS fields of two states agree (10_state.md R37). -/
abbrev State.sameStatus (s t : State) : Prop :=
  t.err = s.err ∧ t.fault = s.fault ∧ t.drop = s.drop

/-- Every field of the block is 0 (10_state.md R46). -/
abbrev State.blockIsZero (s : State) : Prop :=
  (∀ r : Reg, s.reg r = 0#33) ∧ s.acc = 0#32 ∧ (∀ j : Fin 4, s.win[j] = 0#8) ∧
    s.err = 0#4 ∧ s.fault = false ∧ s.drop = false

/-- From `s` to `t`, register `rd` takes the value `v` and nothing else changes. -/
abbrev State.writesOnlyReg (s t : State) (rd : Reg) (v : Poly) : Prop :=
  t.reg rd = v ∧ (∀ r : Reg, r ≠ rd → t.reg r = s.reg r) ∧
    t.acc = s.acc ∧ t.win = s.win ∧ s.sameStatus t ∧ s.sameBus t

/-- From `s` to `t`, ACC takes the value `v` and nothing else changes. -/
abbrev State.writesOnlyAcc (s t : State) (v : Word) : Prop :=
  t.acc = v ∧ t.p = s.p ∧ t.win = s.win ∧ s.sameStatus t ∧ s.sameBus t

/-- From `s` to `t`, each byte `j` of WIN takes the value `w j` and nothing else changes. -/
abbrev State.writesOnlyWin (s t : State) (w : Fin 4 → Byte) : Prop :=
  (∀ j : Fin 4, t.win[j] = w j) ∧ t.p = s.p ∧ t.acc = s.acc ∧ s.sameStatus t ∧ s.sameBus t

/-- From `s` to `t`, the error `e` is raised: ERR takes its code, FAULT becomes 1, and nothing else changes
(60_exceptions.md R231). -/
abbrev State.raisesOnly (s t : State) (code : BitVec 4) : Prop :=
  t.err = code ∧ t.fault = true ∧ t.p = s.p ∧ t.acc = s.acc ∧ t.win = s.win ∧ t.drop = s.drop ∧ s.sameBus t

/-- The 32-bit operands of each command, in the order in which they are tested (60_exceptions.md R233, R234). -/
def operands32 : Instr → List Reg
  | .mulm _ rs1 rs2 => [rs1, rs2]
  | .powm _ rs1 _ => [rs1]
  | .recip _ rs1 => [rs1]
  | .crcw rs1 => [rs1]
  | .crcset rs1 => [rs1]
  | .rev32 _ rs1 => [rs1]
  | .delta _ rs1 rs2 _ => [rs1, rs2]
  | .apply rs1 => [rs1]
  | .winld rs1 => [rs1]
  | .nop | .ldi _ _ | .ldg _ | .padd _ _ _ | .deg _ _ | .divr _ _ _ _ | .crcinit | .crcbi _ | .crcrd _ | .crcraw _
  | .winrd _ => []

/-- Some 32-bit operand of the command has bit 32 set (60_exceptions.md R233). -/
abbrev State.outOfRange (s : State) (i : Instr) : Prop := ∃ r ∈ operands32 i, (s.reg r).getLsbD 32 = true

/-- The destination registers of each command: rd, and rd2 of DIVR (10_state.md R32). -/
def destinations : Instr → List Reg
  | .ldi rd _ => [rd]
  | .ldg rd => [rd]
  | .padd rd _ _ => [rd]
  | .deg rd _ => [rd]
  | .divr rd rd2 _ _ => [rd, rd2]
  | .mulm rd _ _ => [rd]
  | .powm rd _ _ => [rd]
  | .recip rd _ => [rd]
  | .crcrd rd => [rd]
  | .crcraw rd => [rd]
  | .rev32 rd _ => [rd]
  | .delta rd _ _ _ => [rd]
  | .winrd rd => [rd]
  | .nop | .crcinit | .crcbi _ | .crcw _ | .crcset _ | .apply _ | .winld _ => []

end Sys2Proof.Machine
end

