-- ==== Sys2Proof/Certificates/Slice0/Obligations.lean ====
section
/-! DEFINITION. The statements about the model, for the provers. Each docstring names the rule of spec/ it rests on.
The window's rules are stated of the spec's own primitives HostRead and HostWrite (`hostRead`, `hostWrite`), a command
word's of Exec (`execWord`), a command's of `exec`; `runEvent` is one bus event, and `StepRunsEarliestEvent` and
`StepRunsDecodedCommand` carry all of them to `step`. `s.sameBus t` says that the fields around the block, which are
the model's own (log entries 1 to 3), are as they were; that a reset leaves them so is log entry 11. -/

open Sys2Proof Sys2Proof.Machine

/-! ## Reset and the register window -/

/-- 10_state.md R46, 70_reset_and_hazards.md R260, R261: the state after reset has every field of the block at 0, and
so has, from every state, what a hardware reset or a soft reset leaves. That a hardware reset lands between two accesses,
and that both resets leave the fields around the block as they are, is the model's choice: log entry 11. -/
def Obligations.ResetLeavesEveryFieldZero : Prop :=
  State.reset.blockIsZero ∧
  (∀ s : State, ∃ t, runEvent .hardReset s = .next t ∧ t.blockIsZero ∧ s.sameBus t) ∧
  (∀ (s : State) (v : Word), v.getLsbD 0 = true →
    ∃ t, hostWrite 0x00 v s = .next t ∧ t.blockIsZero ∧ s.sameBus t)

/-- 20_memory.md R63: a write to CTRL with bit 0 set resets the block, in any state; any other write has no effect; a
read gives 0. That the reset leaves the fields around the block as they are is the model's choice: log entry 11. -/
def Obligations.CtrlAccess : Prop :=
  ∀ s : State,
    (∀ v : Word, v.getLsbD 0 = true → ∃ t, hostWrite 0x00 v s = .next t ∧ t.blockIsZero ∧ s.sameBus t) ∧
    (∀ v : Word, v.getLsbD 0 = false → hostWrite 0x00 v s = .next s) ∧
    hostRead 0x00 s = 0#32

/-- 20_memory.md R64: STATUS reads as DROP at bit 9, FAULT at bit 8, ERR at bits 3:0 and no other bit, and reading it
changes nothing; a write has no effect. -/
def Obligations.StatusAccess : Prop :=
  ∀ s : State,
    (hostRead 0x04 s).toNat = 512 * s.drop.toNat + 256 * s.fault.toNat + s.err.toNat ∧
    (∀ t, runEvent (.read (s.base + 0x04) .word) s = .next t → s.sameBlock t) ∧
    ∀ v : Word, hostWrite 0x04 v s = .next s

/-- 20_memory.md R65: a write to CMD executes the word written; a read gives 0. -/
def Obligations.CmdAccess : Prop :=
  ∀ s : State, (∀ w : Word, hostWrite 0x08 w s = execWord w s) ∧ hostRead 0x08 s = 0#32

/-- 20_memory.md R66: WIN is read and written as one word, WIN[j] at bits 8j+7:8j, in any state. -/
def Obligations.WinAccess : Prop :=
  ∀ s : State,
    (∀ j : Fin 4, (hostRead 0x0C s).extractLsb' (8 * j.val) 8 = s.win[j]) ∧
    ∀ v : Word, ∃ t, hostWrite 0x0C v s = .next t ∧ s.writesOnlyWin t (fun j => v.extractLsb' (8 * j.val) 8)

/-- 20_memory.md R67: ACC is read-only to the host. -/
def Obligations.AccAccess : Prop :=
  ∀ s : State, hostRead 0x10 s = s.acc ∧ ∀ v : Word, hostWrite 0x10 v s = .next s

/-- 20_memory.md R68: PnLO is bits 31:0 of Pn and PnHI bit 0 is bit 32; each write keeps the other half, in any
state. -/
def Obligations.PolyRegisterAccess : Prop :=
  ∀ (s : State) (n : Reg),
    (hostRead (0x20 + 8 * n.val) s).toNat = (s.reg n).toNat % 2 ^ 32 ∧
    (hostRead (0x24 + 8 * n.val) s).toNat = (s.reg n).toNat / 2 ^ 32 ∧
    ∀ v : Word,
      (∃ t x, hostWrite (0x20 + 8 * n.val) v s = .next t ∧ s.writesOnlyReg t n x ∧
        x.toNat = 2 ^ 32 * ((s.reg n).toNat / 2 ^ 32) + v.toNat) ∧
      (∃ t x, hostWrite (0x24 + 8 * n.val) v s = .next t ∧ s.writesOnlyReg t n x ∧
        x.toNat = 2 ^ 32 * (v.toNat % 2) + (s.reg n).toNat % 2 ^ 32)

/-- 20_memory.md R69: a reserved offset (0x14, 0x18, 0x1C, and 0x60 to 0xFC) reads as 0, and a write has no effect. -/
def Obligations.ReservedAccess : Prop :=
  ∀ (s : State) (off : Nat), off % 4 = 0 → ((0x14 ≤ off ∧ off ≤ 0x1C) ∨ (0x60 ≤ off ∧ off ≤ 0xFC)) →
    hostRead off s = 0#32 ∧ ∀ v : Word, hostWrite off v s = .next s

/-- 20_memory.md R71, R61: an access that is no full word, or not aligned, or not in the window, has no step. Which
stop it is, is the model's: log entry 4. -/
def Obligations.OtherAccessesHaveNoStep : Prop :=
  ∀ (s : State) (e : BusEvent), ¬ s.admitsEvent e → ∀ t, runEvent e s ≠ .next t

/-- 20_memory.md R61, R71: a host that makes only admitted accesses never sees the machine stop, and BASE never
changes. That accesses wait in a list, and that a state with nothing pending steps to itself, are the model's choices:
log entries 1 and 5. -/
def Obligations.ObedientHostNeverStops : Prop :=
  ∀ s : State, s.hostObeysRules →
    ∃ t, step s = .next t ∧ t.hostObeysRules ∧ t.basePage = s.basePage

/-- 20_memory.md R73: reads change nothing of the block, every write but one to CMD is idempotent, and a write to CMD
is not. -/
def Obligations.OnlyCommandsAreNotIdempotent : Prop :=
  (∀ (s t : State) (addr : Nat) (size : AccessSize), runEvent (.read addr size) s = .next t → s.sameBlock t) ∧
  (∀ (s t u : State) (off : Nat) (v : Word), off < 0x100 → off % 4 = 0 → off ≠ 0x08 →
    hostWrite off v s = .next t → hostWrite off v t = .next u → u = t) ∧
  (∃ (s t u : State) (w : Word), hostWrite 0x08 w s = .next t ∧ hostWrite 0x08 w t = .next u ∧ ¬ t.sameBlock u)

/-- A step is the earliest pending event, run on the state without it; an admitted read returns the word of its offset
to the host and an admitted write acts at its offset (20_memory.md R61, R72, R74). The list of pending events, the list
of words read and the idle step are the model's choices: log entries 1, 2 and 5. -/
def Obligations.StepRunsEarliestEvent : Prop :=
  (∀ s : State, s.pending = [] → step s = .next s) ∧
  (∀ (s : State) (e : BusEvent) (rest : List BusEvent), s.pending = e :: rest →
    step s = runEvent e { s with pending := rest }) ∧
  (∀ (s : State) (off : Nat), off < 0x100 → off % 4 = 0 →
    (∃ t, runEvent (.read (s.base + off) .word) s = .next t ∧ s.sameBlock t ∧
      t.basePage = s.basePage ∧ t.pending = s.pending ∧ t.replies = s.replies ++ [hostRead off s]) ∧
    ∀ v : Word, runEvent (.write (s.base + off) .word v) s = hostWrite off v s)

/-! ## Encoding -/

/-- 30_encoding.md R91, R94 to R97: decoding the word of a well-formed command gives the command, with every operand
at every value. -/
def Obligations.DecodeOfEncode : Prop :=
  ∀ i : Instr, i.wellFormed = true → decode (encode i) = .ok i

/-- 30_encoding.md R94 to R97: a word that decodes is the word of the command it decodes to, so no two words mean one
command and no bit of a word is dropped. -/
def Obligations.EncodeOfDecode : Prop :=
  ∀ (w : Word) (i : Instr), decode w = .ok i → i.wellFormed = true ∧ encode i = w

/-- 30_encoding.md R95, R96: the legal words are those that match one of the 20 rows under its mask and are no DIVR
with rd = rd2. The rows are written here from R95. -/
def Obligations.LegalWordsMatchTheTable : Prop :=
  ∀ w : Word, (∃ i, decode w = .ok i) ↔
    (∃ row ∈ ([(0x00000000, 0xFFFFFFFF), (0x01000000, 0xFF1FFF00), (0x02000000, 0xFF1FFFFF), (0x03000000, 0xFF007FFF),
        (0x10000000, 0xFF03FFFF), (0x11000000, 0xFF000FFF), (0x12000000, 0xFF007FFF), (0x13000000, 0xFF007FFF),
        (0x14000000, 0xFF03FFFF), (0x20000000, 0xFFFFFFFF), (0x21000000, 0xFFFFFF00), (0x22000000, 0xFFE3FFFF),
        (0x23000000, 0xFFE3FFFF), (0x24000000, 0xFF1FFFFF), (0x25000000, 0xFF1FFFFF), (0x26000000, 0xFF03FFFF),
        (0x30000000, 0xFF000FFF), (0x31000000, 0xFFE3FFFF), (0x32000000, 0xFFE3FFFF), (0x33000000, 0xFF1FFFFF)]
          : List (Word × Word)),
      w &&& row.2 = row.1) ∧
    ¬ (w.extractLsb' 24 8 = 0x11#8 ∧ w.extractLsb' 21 3 = w.extractLsb' 12 3)

/-- 30_encoding.md R97: a DIVR word whose rd and rd2 fields are equal is illegal. -/
def Obligations.DivrWithOneDestinationIsIllegal : Prop :=
  ∀ w : Word, w.extractLsb' 24 8 = 0x11#8 → w.extractLsb' 21 3 = w.extractLsb' 12 3 → ∀ i, decode w ≠ .ok i

/-- 30_encoding.md R99: the all-zero word is NOP, no other word is, and executing it outside the fault state does
nothing. -/
def Obligations.NopHasExactlyOneWord : Prop :=
  (∀ w : Word, decode w = .ok .nop ↔ w = 0x00000000#32) ∧
  (∀ s : State, s.fault = false → execWord 0x00000000#32 s = .next s)

/-- Words of the spec's own examples decode to the commands they are written for (30_encoding.md R101; 40_data.md,
41_gf2_arith.md, 42_crc_engine.md, 43_patch.md). -/
def Obligations.SampleWordsDecode : Prop :=
  decode 0x11654000#32 = .ok (.divr 3 4 1 2) ∧ decode 0x01600020#32 = .ok (.ldi 3 0x20#8) ∧
  decode 0x12050000#32 = .ok (.mulm 0 1 2) ∧ decode 0x21000068#32 = .ok (.crcbi 0x68#8) ∧
  decode 0x22040000#32 = .ok (.crcw 1) ∧ decode 0x26480000#32 = .ok (.rev32 2 2) ∧
  decode 0x30853000#32 = .ok (.delta 4 1 2 3) ∧ decode 0x33A00000#32 = .ok (.winrd 5)

/-! ## Executing a command word, errors, the fault state -/

/-- 60_exceptions.md R230: a write to CMD of a word that decodes runs the decoded command on the state without that
event, in one step. The list of pending events is the model's choice: log entry 1. That this holds in the fault state
too, where the spec drops the word undecoded (60_exceptions.md R236), is because `exec` of any command then only sets
DROP, which the model deduced: log entry 7. -/
def Obligations.StepRunsDecodedCommand : Prop :=
  ∀ (s : State) (rest : List BusEvent) (w : Word) (i : Instr),
    s.pending = .write (s.base + 0x08) .word w :: rest → decode w = .ok i →
    step s = exec i { s with pending := rest }

/-- 30_encoding.md R98, 60_exceptions.md R230: executing an illegal word raises IllegalCommand, code 1. -/
def Obligations.IllegalWordRaisesCodeOne : Prop :=
  ∀ (s : State) (w : Word), s.fault = false → (∀ i, decode w ≠ .ok i) →
    ∃ t, execWord w s = .next t ∧ s.raisesOnly t 1#4

/-- 60_exceptions.md R236, first two sentences: any word written to CMD in the fault state, legal or not, only sets
DROP. -/
def Obligations.CommandInFaultStateIsDropped : Prop :=
  ∀ (s : State) (w : Word), s.fault = true →
    ∃ t, execWord w s = .next t ∧ t.drop = true ∧ t.p = s.p ∧ t.acc = s.acc ∧ t.win = s.win ∧ t.err = s.err ∧
      t.fault = true ∧ s.sameBus t

/-- 10_state.md R40: a command written in the fault state sets DROP, nothing else does, and only reset clears it. -/
def Obligations.DropIsSticky : Prop :=
  ∀ (s t : State) (e : BusEvent), runEvent e s = .next t →
    (∀ w, e = .write (s.base + 0x08) .word w → s.fault = true → t.drop = true) ∧
    (¬ s.isResetEvent e → s.drop = true → t.drop = true) ∧
    (s.isResetEvent e → t.drop = false) ∧
    (s.drop = false → t.drop = true → s.fault = true ∧ ∃ w, e = .write (s.base + 0x08) .word w)

/-- 10_state.md R39: only a raised error sets FAULT, and only reset clears it. The error is raised by a command word and
changes only ERR, to a code 1 to 4, and FAULT (60_exceptions.md R231, R235). -/
def Obligations.FaultIsSticky : Prop :=
  ∀ (s t : State) (e : BusEvent), runEvent e s = .next t →
    (¬ s.isResetEvent e → s.fault = true → t.fault = true) ∧
    (s.isResetEvent e → t.fault = false) ∧
    (s.fault = false → t.fault = true →
      (∃ w, e = .write (s.base + 0x08) .word w) ∧
      ∃ code : BitVec 4, 1#4 ≤ code ∧ code ≤ 4#4 ∧ s.raisesOnly t code)

/-- 60_exceptions.md R238: in the fault state no command executes and the first error's code is kept. -/
def Obligations.FirstErrorIsKept : Prop :=
  ∀ (s t : State) (e : BusEvent), runEvent e s = .next t → s.fault = true → ¬ s.isResetEvent e →
    t.err = s.err ∧
    ∀ w, e = .write (s.base + 0x08) .word w → t.p = s.p ∧ t.acc = s.acc ∧ t.win = s.win

/-- 60_exceptions.md R233: a command raises OperandRange, code 2, exactly when one of its 32-bit operands has bit 32
set. -/
def Obligations.OperandRangeExactly : Prop :=
  ∀ (i : Instr) (s : State), s.fault = false →
    ((∃ t, exec i s = .next t ∧ s.raisesOnly t 2#4) ↔ s.outOfRange i)

/-- 60_exceptions.md R234: what a word written to CMD does, by the first condition that holds: dropped, IllegalCommand,
OperandRange, the command's arithmetic error, or completed with STATUS unchanged. That 0 is the only 32-bit value
without a reciprocal, and that DELTA never fails on arithmetic, are the inferences of 41_gf2_arith.md R146 and
43_patch.md R200. -/
def Obligations.FirstConditionDecides : Prop :=
  ∀ (s : State) (w : Word),
    (s.fault = true → ∃ t, execWord w s = .next t ∧ t.err = s.err ∧ t.fault = true ∧ t.drop = true) ∧
    (s.fault = false → (∀ i, decode w ≠ .ok i) → ∃ t, execWord w s = .next t ∧ s.raisesOnly t 1#4) ∧
    (∀ i, s.fault = false → decode w = .ok i →
      (s.outOfRange i → ∃ t, execWord w s = .next t ∧ s.raisesOnly t 2#4) ∧
      (∀ rd rd2 rs1 rs2, i = .divr rd rd2 rs1 rs2 → s.reg rs2 = 0#33 →
        ∃ t, execWord w s = .next t ∧ s.raisesOnly t 3#4) ∧
      (∀ rd rs1, i = .recip rd rs1 → s.reg rs1 = 0#33 → ∃ t, execWord w s = .next t ∧ s.raisesOnly t 4#4) ∧
      (¬ s.outOfRange i → (∀ rd rd2 rs1 rs2, i = .divr rd rd2 rs1 rs2 → s.reg rs2 ≠ 0#33) →
        (∀ rd rs1, i = .recip rd rs1 → s.reg rs1 ≠ 0#33) →
        ∃ t, execWord w s = .next t ∧ s.sameStatus t ∧ s.sameBus t))

/-- 10_state.md R38 (the inference marked there) and R40: every step keeps ERR one of 0 to 4, ERR nonzero exactly in
the fault state, and DROP set only in the fault state. -/
def Obligations.StatusStaysCoherent : Prop :=
  ∀ s t : State, s.statusCoherent → step s = .next t → t.statusCoherent

/-- 10_state.md R38, R46: STATUS is coherent after reset. -/
def Obligations.StatusIsCoherentAtReset : Prop := State.reset.statusCoherent

/-- 10_state.md R34, 20_memory.md R67: ACC changes only by a reset or by CRCINIT, CRCBI, CRCW or CRCSET. -/
def Obligations.AccChangesOnlyByCrcCommands : Prop :=
  ∀ (s t : State) (e : BusEvent), runEvent e s = .next t → t.acc ≠ s.acc →
    s.isResetEvent e ∨
    ∃ w, e = .write (s.base + 0x08) .word w ∧ s.fault = false ∧
      (decode w = .ok .crcinit ∨ (∃ b, decode w = .ok (.crcbi b)) ∨ (∃ r, decode w = .ok (.crcw r)) ∨
        ∃ r, decode w = .ok (.crcset r))

/-- 10_state.md R36, 20_memory.md R66: WIN changes only by a reset, by the host's write to WIN, or by APPLY or
WINLD. -/
def Obligations.WinChangesOnlyByWindowCommands : Prop :=
  ∀ (s t : State) (e : BusEvent), runEvent e s = .next t → t.win ≠ s.win →
    s.isResetEvent e ∨ (∃ v, e = .write (s.base + 0x0C) .word v) ∨
    ∃ w, e = .write (s.base + 0x08) .word w ∧ s.fault = false ∧
      ((∃ r, decode w = .ok (.apply r)) ∨ ∃ r, decode w = .ok (.winld r))

/-- 10_state.md R32: a polynomial register changes only by a reset, by the host's write to one of its halves, or by a
command that names it as a destination. -/
def Obligations.RegisterChangesOnlyAsDestination : Prop :=
  ∀ (s t : State) (e : BusEvent) (r : Reg), runEvent e s = .next t → t.reg r ≠ s.reg r →
    s.isResetEvent e ∨
    (∃ v, e = .write (s.base + (0x20 + 8 * r.val)) .word v ∨ e = .write (s.base + (0x24 + 8 * r.val)) .word v) ∨
    ∃ w i, e = .write (s.base + 0x08) .word w ∧ s.fault = false ∧ decode w = .ok i ∧ r ∈ destinations i

/-! ## The functions of the units -/

/-- 41_gf2_arith.md R141: for every divisor but 0, `divrem` gives the one quotient and remainder with
`a = q * b + r` and `r = 0` or of smaller degree, and they fit 33 bits when the operands do; a divisor of 0 is an
error, even for a zero dividend. That the pair satisfies the equation and is the only one is the inference marked in
R141. -/
def Obligations.DivremIsPolynomialDivision : Prop :=
  (∀ a : Nat, divrem a 0 = .error .divisionByZero) ∧
  (∀ a b : Nat, b ≠ 0 → ∃ q r, divrem a b = .ok (q, r) ∧
    clmul q b ^^^ r = a ∧ (r = 0 ∨ deg r < deg b) ∧
    (∀ q' r', clmul q' b ^^^ r' = a → (r' = 0 ∨ deg r' < deg b) → q' = q ∧ r' = r) ∧
    (a < 2 ^ 33 → b < 2 ^ 33 → q < 2 ^ 33 ∧ r < 2 ^ 33))

/-- 41_gf2_arith.md R143, first sentence: the shift-and-XOR loop computes the carry-less product reduced modulo G. -/
def Obligations.MulmIsProductModG : Prop :=
  ∀ a b : Nat, a < 2 ^ 32 → mulm a b = modG (clmul a b) ∧ mulm a b < 2 ^ 32

/-- 41_gf2_arith.md R143: multiplication modulo G is commutative, associative, distributive over XOR, with identity 1
and annihilator 0. All of it is the inference marked in R143. -/
def Obligations.MulmRingLaws : Prop :=
  ∀ a b c : Nat, a < 2 ^ 32 → b < 2 ^ 32 → c < 2 ^ 32 →
    mulm a b = mulm b a ∧ mulm (mulm a b) c = mulm a (mulm b c) ∧
    mulm a (b ^^^ c) = mulm a b ^^^ mulm a c ∧ mulm a 1 = a ∧ mulm 1 a = a ∧ mulm a 0 = 0 ∧ mulm 0 a = 0

/-- 41_gf2_arith.md R144: square-and-multiply is the e-fold product, below 2^32, with `powm(a, 0) = 1` for every a and
`powm(0, e) = 0` for e ≥ 1. -/
def Obligations.PowmIsRepeatedProduct : Prop :=
  ∀ a : Nat, a < 2 ^ 32 →
    powm a 0 = 1 ∧ (∀ e : Nat, powm a (e + 1) = mulm (powm a e) a) ∧ (∀ e : Nat, powm a e < 2 ^ 32) ∧
    (∀ e : Nat, powm 0 (e + 1) = 0)

/-- 41_gf2_arith.md R145: when a and G have no common divisor but 1, `recip(a)` is the unique r below 2^32 with
`mulm(r, a) = 1`; otherwise it raises NoReciprocal. -/
def Obligations.RecipIsTheReciprocal : Prop :=
  ∀ a : Nat, a < 2 ^ 32 →
    ((∀ d q g : Nat, a = clmul q d → gNat = clmul g d → d = 1) →
      ∃ r, recip a = .ok r ∧ r < 2 ^ 32 ∧ mulm r a = 1 ∧ ∀ r', r' < 2 ^ 32 → mulm r' a = 1 → r' = r) ∧
    (¬ (∀ d q g : Nat, a = clmul q d → gNat = clmul g d → d = 1) → recip a = .error .noReciprocal)

/-- 41_gf2_arith.md R146 (an inference of the spec): 0 is the only value below 2^32 without a reciprocal. -/
def Obligations.OnlyZeroHasNoReciprocal : Prop :=
  ∀ a : Nat, a < 2 ^ 32 → (recip a = .error .noReciprocal ↔ a = 0) ∧ (a ≠ 0 → ∃ r, recip a = .ok r ∧ mulm r a = 1)

/-- 42_crc_engine.md R170: rev32 puts bit 31 - i at bit i, is its own inverse, and is linear over XOR (the last two
are the spec's inferences). -/
def Obligations.Rev32ReversesBits : Prop :=
  (∀ (v : Word) (i : Nat), i < 32 → (rev32 v).getLsbD i = v.getLsbD (31 - i)) ∧
  (∀ v : Word, rev32 (rev32 v) = v) ∧ (∀ a b : Word, rev32 (a ^^^ b) = rev32 a ^^^ rev32 b)

/-- 42_crc_engine.md R171 and 41_gf2_arith.md R142 together: in the forward domain, folding a byte multiplies the shift
register, with the byte entered, by x^8 modulo G. -/
def Obligations.FoldIsMultiplicationByX8 : Prop :=
  ∀ (acc : Word) (b : Byte),
    (rev32 (fold acc b ^^^ 0xFFFFFFFF#32)).toNat =
      mulm (rev32 ((acc ^^^ 0xFFFFFFFF#32) ^^^ b.setWidth 32)).toNat (2 ^ 8)

/-- 43_patch.md R201: byte i of the patch is the big-endian byte i of the delta with its 8 bits reversed. That this is
what the rule's formula gives is the inference marked in R201. -/
def Obligations.PatchBytesAreReversedBigEndian : Prop :=
  ∀ (d : Word) (i : Fin 4) (m : Nat), m < 8 → (patchBytes d)[i].getLsbD m = d.getLsbD (31 - 8 * i.val - m)

/-- 43_patch.md R202: for every byte sequence, window and target, XORing the patch bytes of the delta for 32 tail bits
into the window makes the CRC of the stream the target. -/
def Obligations.PatchForcesTheTarget : Prop :=
  ∀ (bytes : List Byte) (w : Vector Byte 4) (target : Word),
    ∃ d, delta (rev32 (crc (bytes ++ w.toList))) (rev32 target) 32 = .ok d ∧
      crc (bytes ++ (xorWindow w (patchBytes d)).toList) = target

/-- 43_patch.md R203: when the original CRC equals the target, the delta is 0 for every tail count, and the patch of a
zero delta leaves every window as it was. The rule is an inference of the spec, and that the delta is computed without
an error for every tail count is another (43_patch.md R200, 41_gf2_arith.md R146). -/
def Obligations.EqualCrcsNeedNoPatch : Prop :=
  (∀ (o : Word) (k : Nat), delta o o k = .ok 0#32) ∧ ∀ w : Vector Byte 4, xorWindow w (patchBytes 0#32) = w

/-! ## The commands: each completes, outside the fault state, with its own effect and no other -/

/-- 40_data.md R120: NOP changes nothing. -/
def Obligations.NopChangesNothing : Prop :=
  ∀ s : State, s.fault = false → exec .nop s = .next s

/-- 40_data.md R121: LDI writes the zero-extended immediate byte. -/
def Obligations.LdiWritesImmediate : Prop :=
  ∀ (s : State) (rd : Reg) (imm8 : Byte), s.fault = false →
    ∃ t v, exec (.ldi rd imm8) s = .next t ∧ s.writesOnlyReg t rd v ∧ v.toNat = imm8.toNat

/-- 40_data.md R122: LDG writes the generator polynomial. -/
def Obligations.LdgWritesGenerator : Prop :=
  ∀ (s : State) (rd : Reg), s.fault = false →
    ∃ t, exec (.ldg rd) s = .next t ∧ s.writesOnlyReg t rd 0x104C11DB7#33

/-- 40_data.md R123: PADD writes the 33-bit XOR of its sources, whichever registers coincide. -/
def Obligations.PaddWritesSum : Prop :=
  ∀ (s : State) (rd rs1 rs2 : Reg), s.fault = false →
    ∃ t, exec (.padd rd rs1 rs2) s = .next t ∧ s.writesOnlyReg t rd (s.reg rs1 ^^^ s.reg rs2)

/-- 41_gf2_arith.md R140, R150: DEG writes the index of the highest set bit, or NODEG for the zero polynomial. -/
def Obligations.DegWritesHighestSetBit : Prop :=
  ∀ (s : State) (rd rs1 : Reg), s.fault = false →
    ∃ t v, exec (.deg rd rs1) s = .next t ∧ s.writesOnlyReg t rd v ∧
      (s.reg rs1 = 0#33 → v = 0x1FFFFFFFF#33) ∧
      (s.reg rs1 ≠ 0#33 → v.toNat ≤ 32 ∧ (s.reg rs1).getLsbD v.toNat = true ∧
        ∀ j, v.toNat < j → (s.reg rs1).getLsbD j = false)

/-- 41_gf2_arith.md R151: DIVR with two destinations and a divisor other than 0 writes the quotient to rd and the
remainder to rd2, in full, whichever sources coincide with them. -/
def Obligations.DivrWritesQuotientAndRemainder : Prop :=
  ∀ (s : State) (rd rd2 rs1 rs2 : Reg), s.fault = false → rd ≠ rd2 → s.reg rs2 ≠ 0#33 →
    ∃ t q r, exec (.divr rd rd2 rs1 rs2) s = .next t ∧
      divrem (s.reg rs1).toNat (s.reg rs2).toNat = .ok (q, r) ∧
      (t.reg rd).toNat = q ∧ (t.reg rd2).toNat = r ∧
      (∀ x : Reg, x ≠ rd → x ≠ rd2 → t.reg x = s.reg x) ∧
      t.acc = s.acc ∧ t.win = s.win ∧ s.sameStatus t ∧ s.sameBus t

/-- 41_gf2_arith.md R152: MULM of two 32-bit operands writes their product modulo G. -/
def Obligations.MulmWritesProduct : Prop :=
  ∀ (s : State) (rd rs1 rs2 : Reg), s.fault = false →
    (s.reg rs1).getLsbD 32 = false → (s.reg rs2).getLsbD 32 = false →
    ∃ t v, exec (.mulm rd rs1 rs2) s = .next t ∧ s.writesOnlyReg t rd v ∧
      v.toNat = mulm (s.reg rs1).toNat (s.reg rs2).toNat

/-- 41_gf2_arith.md R153: POWM of a 32-bit base writes its power modulo G, the exponent being the whole 33-bit
register. -/
def Obligations.PowmWritesPower : Prop :=
  ∀ (s : State) (rd rs1 rs2 : Reg), s.fault = false → (s.reg rs1).getLsbD 32 = false →
    ∃ t v, exec (.powm rd rs1 rs2) s = .next t ∧ s.writesOnlyReg t rd v ∧
      v.toNat = powm (s.reg rs1).toNat (s.reg rs2).toNat

/-- 41_gf2_arith.md R154, R146: RECIP of any 32-bit operand but 0 writes the 32-bit value whose product with the
operand is 1. That 0 alone has no reciprocal is the inference marked in R146. -/
def Obligations.RecipWritesReciprocal : Prop :=
  ∀ (s : State) (rd rs1 : Reg), s.fault = false → (s.reg rs1).getLsbD 32 = false → s.reg rs1 ≠ 0#33 →
    ∃ t v, exec (.recip rd rs1) s = .next t ∧ s.writesOnlyReg t rd v ∧
      recip (s.reg rs1).toNat = .ok v.toNat ∧ v.toNat < 2 ^ 32 ∧ mulm v.toNat (s.reg rs1).toNat = 1

/-- 41_gf2_arith.md R151, R154: DIVR by 0 raises DivisionByZero, code 3, for every dividend, and RECIP of 0 raises
NoReciprocal, code 4. -/
def Obligations.ArithmeticErrorsAreRaised : Prop :=
  ∀ s : State, s.fault = false →
    (∀ rd rd2 rs1 rs2 : Reg, rd ≠ rd2 → s.reg rs2 = 0#33 →
      ∃ t, exec (.divr rd rd2 rs1 rs2) s = .next t ∧ s.raisesOnly t 3#4) ∧
    (∀ rd rs1 : Reg, s.reg rs1 = 0#33 → ∃ t, exec (.recip rd rs1) s = .next t ∧ s.raisesOnly t 4#4)

/-- 42_crc_engine.md R180 to R183: CRCINIT clears ACC, CRCBI folds its byte, CRCW folds the four bytes of a 32-bit
operand from bits 7:0 up, CRCSET loads a 32-bit operand; nothing else changes. -/
def Obligations.CrcCommandsWriteAcc : Prop :=
  ∀ s : State, s.fault = false →
    (∃ t, exec .crcinit s = .next t ∧ s.writesOnlyAcc t 0#32) ∧
    (∀ b : Byte, ∃ t, exec (.crcbi b) s = .next t ∧ s.writesOnlyAcc t (fold s.acc b)) ∧
    (∀ rs1 : Reg, (s.reg rs1).getLsbD 32 = false →
      ∃ t, exec (.crcw rs1) s = .next t ∧
        s.writesOnlyAcc t ([(s.reg rs1).extractLsb' 0 8, (s.reg rs1).extractLsb' 8 8, (s.reg rs1).extractLsb' 16 8,
          (s.reg rs1).extractLsb' 24 8].foldl fold s.acc)) ∧
    (∀ rs1 : Reg, (s.reg rs1).getLsbD 32 = false →
      ∃ t, exec (.crcset rs1) s = .next t ∧ s.writesOnlyAcc t ((s.reg rs1).extractLsb' 0 32))

/-- 42_crc_engine.md R184, R185: CRCRD writes the forward value and CRCRAW the conventional value of ACC,
zero-extended, and ACC is unchanged. -/
def Obligations.CrcReadsWriteRegister : Prop :=
  ∀ (s : State) (rd : Reg), s.fault = false →
    (∃ t v, exec (.crcrd rd) s = .next t ∧ s.writesOnlyReg t rd v ∧ v.toNat = (rev32 s.acc).toNat) ∧
    (∃ t v, exec (.crcraw rd) s = .next t ∧ s.writesOnlyReg t rd v ∧ v.toNat = s.acc.toNat)

/-- 42_crc_engine.md R186: REV32 of a 32-bit operand writes its bits reversed, with bit 32 clear. -/
def Obligations.Rev32WritesReversedBits : Prop :=
  ∀ (s : State) (rd rs1 : Reg), s.fault = false → (s.reg rs1).getLsbD 32 = false →
    ∃ t v, exec (.rev32 rd rs1) s = .next t ∧ s.writesOnlyReg t rd v ∧ v.getLsbD 32 = false ∧
      ∀ i, i < 32 → v.getLsbD i = (s.reg rs1).getLsbD (31 - i)

/-- 43_patch.md R200, R209: DELTA of two 32-bit operands completes for every tail count and writes
`mulm(recip(powm(2, k)), o ⊕ t)`. That `recip` succeeds for every tail count is the inference marked in R200, from
41_gf2_arith.md R146. -/
def Obligations.DeltaWritesDelta : Prop :=
  ∀ (s : State) (rd rs1 rs2 rs3 : Reg), s.fault = false →
    (s.reg rs1).getLsbD 32 = false → (s.reg rs2).getLsbD 32 = false →
    ∃ t v r, exec (.delta rd rs1 rs2 rs3) s = .next t ∧ s.writesOnlyReg t rd v ∧
      recip (powm 2 (s.reg rs3).toNat) = .ok r ∧
      v.toNat = mulm r (s.reg rs1 ^^^ s.reg rs2).toNat

/-- 43_patch.md R210: APPLY of a 32-bit operand XORs byte i of its reversed bits into WIN[i]. -/
def Obligations.ApplyPatchesWindow : Prop :=
  ∀ (s : State) (rs1 : Reg), s.fault = false → (s.reg rs1).getLsbD 32 = false →
    ∃ t, exec (.apply rs1) s = .next t ∧
      s.writesOnlyWin t (fun j =>
        s.win[j] ^^^ (rev32 ((s.reg rs1).extractLsb' 0 32)).extractLsb' (8 * j.val) 8)

/-- 43_patch.md R211: WINLD of a 32-bit operand writes its byte i, bits 8i+7:8i, to WIN[i]. -/
def Obligations.WinldLoadsWindow : Prop :=
  ∀ (s : State) (rs1 : Reg), s.fault = false → (s.reg rs1).getLsbD 32 = false →
    ∃ t, exec (.winld rs1) s = .next t ∧
      s.writesOnlyWin t (fun j => (s.reg rs1).extractLsb' (8 * j.val) 8)

/-- 43_patch.md R212: WINRD writes the window as one word, WIN[i] at bits 8i+7:8i, with bit 32 clear. -/
def Obligations.WinrdReadsWindow : Prop :=
  ∀ (s : State) (rd : Reg), s.fault = false →
    ∃ t v, exec (.winrd rd) s = .next t ∧ s.writesOnlyReg t rd v ∧ v.getLsbD 32 = false ∧
      ∀ j : Fin 4, v.extractLsb' (8 * j.val) 8 = s.win[j]
end

