-- ==== Sys2Proof/Laws/Crc.lean ====
section
/-! SUPPORT. The CRC functions over XOR, bit by bit. -/

namespace Sys2Proof.Machine

/-- Bit `i` of a byte of a word (20_memory.md R70). -/
theorem byteOf_getLsbD (v : Word) (j i : Nat) : (byteOf v j).getLsbD i = (decide (i < 8) && v.getLsbD (8 * j + i)) := by
  rw [byteOf, BitVec.getLsbD_extractLsb']

theorem byteOf_xor (a b : Word) (j : Nat) : byteOf (a ^^^ b) j = byteOf a j ^^^ byteOf b j := by
  apply BitVec.eq_of_getLsbD_eq
  intro i hi
  rw [BitVec.getLsbD_xor]
  simp only [byteOf_getLsbD, BitVec.getLsbD_xor, hi, decide_true, Bool.true_and]

/-- A shift of the reflected register is linear over XOR. -/
theorem crcShift_xor (a b : Word) : crcShift (a ^^^ b) = crcShift a ^^^ crcShift b := by
  have hs : (a ^^^ b) >>> 1 = a >>> 1 ^^^ b >>> 1 := by
    apply BitVec.eq_of_getLsbD_eq
    intro i _
    simp
  unfold crcShift
  rw [BitVec.getLsbD_xor, hs]
  cases a.getLsbD 0 <;> cases b.getLsbD 0 <;>
    simp only [Bool.xor_false, Bool.xor_true, Bool.not_false, Bool.not_true, Bool.false_eq_true, if_true, if_false] <;>
    apply BitVec.eq_of_getLsbD_eq <;> intro i _ <;> simp only [BitVec.getLsbD_xor] <;>
    cases (a >>> 1).getLsbD i <;> cases (b >>> 1).getLsbD i <;> cases refPoly.getLsbD i <;> rfl

theorem crcShifts_xor (n : Nat) : ∀ a b : Word, crcShifts n (a ^^^ b) = crcShifts n a ^^^ crcShifts n b := by
  induction n with
  | zero => intro a b; rfl
  | succ n ih => intro a b; rw [crcShifts, crcShift_xor, ih]; rfl

end Sys2Proof.Machine
end

