-- ==== Sys2Proof/Laws/Decode.lean ====
section
/-! SUPPORT. What the field extractions and the masks read from an encoded word (30_encoding.md R91, R94). -/

namespace Sys2Proof

variable (op : BitVec 8) (rd rs1 rs2 rs3 : Reg) (imm8 : Byte)

theorem regBits_toNat (r : Reg) : (regBits r).toNat = r.val := by
  simp [regBits]

/-- A field whose bits are a register's bits reads as that register. -/
theorem regField_of_bits {w : Word} {lo : Nat} {r : Reg} (h : w.extractLsb' lo 3 = regBits r) :
    regField w lo = r := by
  rw [regField, h, regBits_toNat]
  apply Fin.ext
  simp [Fin.ofNat]

@[simp] theorem opField_encodeFields : opField (encodeFields op rd rs1 rs2 rs3 imm8) = op := by
  apply BitVec.eq_of_getLsbD_eq
  intro i hi
  simp only [opField, encodeFields, BitVec.getLsbD_extractLsb', BitVec.getLsbD_append]
  interval_cases i <;> simp

@[simp] theorem rdField_encodeFields : rdField (encodeFields op rd rs1 rs2 rs3 imm8) = rd := by
  apply regField_of_bits
  apply BitVec.eq_of_getLsbD_eq
  intro i hi
  simp only [encodeFields, BitVec.getLsbD_extractLsb', BitVec.getLsbD_append]
  interval_cases i <;> simp

@[simp] theorem rs1Field_encodeFields : rs1Field (encodeFields op rd rs1 rs2 rs3 imm8) = rs1 := by
  apply regField_of_bits
  apply BitVec.eq_of_getLsbD_eq
  intro i hi
  simp only [encodeFields, BitVec.getLsbD_extractLsb', BitVec.getLsbD_append]
  interval_cases i <;> simp

@[simp] theorem rs2Field_encodeFields : rs2Field (encodeFields op rd rs1 rs2 rs3 imm8) = rs2 := by
  apply regField_of_bits
  apply BitVec.eq_of_getLsbD_eq
  intro i hi
  simp only [encodeFields, BitVec.getLsbD_extractLsb', BitVec.getLsbD_append]
  interval_cases i <;> simp

@[simp] theorem rs3Field_encodeFields : rs3Field (encodeFields op rd rs1 rs2 rs3 imm8) = rs3 := by
  apply regField_of_bits
  apply BitVec.eq_of_getLsbD_eq
  intro i hi
  simp only [encodeFields, BitVec.getLsbD_extractLsb', BitVec.getLsbD_append]
  interval_cases i <;> simp

@[simp] theorem imm8Field_encodeFields : imm8Field (encodeFields op rd rs1 rs2 rs3 imm8) = imm8 := by
  apply BitVec.eq_of_getLsbD_eq
  intro i hi
  simp only [imm8Field, encodeFields, BitVec.getLsbD_extractLsb', BitVec.getLsbD_append]
  interval_cases i <;> simp

/-! What each format's mask leaves of a word whose other fields are zero: the match value. -/

@[simp] theorem mask_n : encodeFields op 0 0 0 0 0#8 &&& Format.mask .n = op ++ (0#24) := by
  apply BitVec.eq_of_getLsbD_eq
  intro i hi
  simp only [encodeFields, BitVec.getLsbD_and, BitVec.getLsbD_append, Format.mask]
  interval_cases i <;> simp [regBits]

@[simp] theorem mask_ri : encodeFields op rd 0 0 0 imm8 &&& Format.mask .ri = op ++ (0#24) := by
  apply BitVec.eq_of_getLsbD_eq
  intro i hi
  simp only [encodeFields, BitVec.getLsbD_and, BitVec.getLsbD_append, Format.mask]
  interval_cases i <;> simp [regBits]

@[simp] theorem mask_r : encodeFields op rd 0 0 0 0#8 &&& Format.mask .r = op ++ (0#24) := by
  apply BitVec.eq_of_getLsbD_eq
  intro i hi
  simp only [encodeFields, BitVec.getLsbD_and, BitVec.getLsbD_append, Format.mask]
  interval_cases i <;> simp [regBits]

@[simp] theorem mask_s : encodeFields op 0 rs1 0 0 0#8 &&& Format.mask .s = op ++ (0#24) := by
  apply BitVec.eq_of_getLsbD_eq
  intro i hi
  simp only [encodeFields, BitVec.getLsbD_and, BitVec.getLsbD_append, Format.mask]
  interval_cases i <;> simp [regBits]

@[simp] theorem mask_i : encodeFields op 0 0 0 0 imm8 &&& Format.mask .i = op ++ (0#24) := by
  apply BitVec.eq_of_getLsbD_eq
  intro i hi
  simp only [encodeFields, BitVec.getLsbD_and, BitVec.getLsbD_append, Format.mask]
  interval_cases i <;> simp [regBits]

@[simp] theorem mask_rr : encodeFields op rd rs1 0 0 0#8 &&& Format.mask .rr = op ++ (0#24) := by
  apply BitVec.eq_of_getLsbD_eq
  intro i hi
  simp only [encodeFields, BitVec.getLsbD_and, BitVec.getLsbD_append, Format.mask]
  interval_cases i <;> simp [regBits]

@[simp] theorem mask_rrr : encodeFields op rd rs1 rs2 0 0#8 &&& Format.mask .rrr = op ++ (0#24) := by
  apply BitVec.eq_of_getLsbD_eq
  intro i hi
  simp only [encodeFields, BitVec.getLsbD_and, BitVec.getLsbD_append, Format.mask]
  interval_cases i <;> simp [regBits]

@[simp] theorem mask_dd : encodeFields op rd rs1 rs2 rs3 0#8 &&& Format.mask .dd = op ++ (0#24) := by
  apply BitVec.eq_of_getLsbD_eq
  intro i hi
  simp only [encodeFields, BitVec.getLsbD_and, BitVec.getLsbD_append, Format.mask]
  interval_cases i <;> simp [regBits]

@[simp] theorem mask_rrrr : encodeFields op rd rs1 rs2 rs3 0#8 &&& Format.mask .rrrr = op ++ (0#24) := by
  apply BitVec.eq_of_getLsbD_eq
  intro i hi
  simp only [encodeFields, BitVec.getLsbD_and, BitVec.getLsbD_append, Format.mask]
  interval_cases i <;> simp [regBits]

/-- A word that passes its row's checks decodes to the row's command. -/
theorem decode_of_row {w : Word} {row : OpcodeRow} {i : Instr}
    (hrow : opcodeTable.find? (fun row => row.op == opField w) = some row)
    (hmask : w &&& row.format.mask = row.matchWord)
    (hbuild : row.build (rdField w) (rs1Field w) (rs2Field w) (rs3Field w) (imm8Field w) = i)
    (hwf : i.wellFormed = true) : decode w = .ok i := by
  subst hbuild
  simp only [decode, hrow, hmask, ne_eq, not_true_eq_false, if_false, hwf, if_true]

/-- The opcode map assigns every OP value to one row at most (30_encoding.md R96). -/
theorem opcodeTable_ops_distinct : (opcodeTable.map (·.op)).Nodup := by decide

end Sys2Proof
end

