-- ==== Sys2Proof/Laws/State.lean ====
section
/-! SUPPORT. What each field is after each update of the state, and what each register is after a register write. -/

namespace Sys2Proof.Machine

variable (s : State)

@[simp] theorem State.setReg_p (r : Reg) (v : Poly) : (s.setReg r v).p = s.p.set r.val v r.isLt := rfl
@[simp] theorem State.setReg_acc (r : Reg) (v : Poly) : (s.setReg r v).acc = s.acc := rfl
@[simp] theorem State.setReg_win (r : Reg) (v : Poly) : (s.setReg r v).win = s.win := rfl
@[simp] theorem State.setReg_err (r : Reg) (v : Poly) : (s.setReg r v).err = s.err := rfl
@[simp] theorem State.setReg_fault (r : Reg) (v : Poly) : (s.setReg r v).fault = s.fault := rfl
@[simp] theorem State.setReg_drop (r : Reg) (v : Poly) : (s.setReg r v).drop = s.drop := rfl
@[simp] theorem State.setReg_basePage (r : Reg) (v : Poly) : (s.setReg r v).basePage = s.basePage := rfl
@[simp] theorem State.setReg_pending (r : Reg) (v : Poly) : (s.setReg r v).pending = s.pending := rfl
@[simp] theorem State.setReg_replies (r : Reg) (v : Poly) : (s.setReg r v).replies = s.replies := rfl

@[simp] theorem State.setAcc_p (v : Word) : (s.setAcc v).p = s.p := rfl
@[simp] theorem State.setAcc_acc (v : Word) : (s.setAcc v).acc = v := rfl
@[simp] theorem State.setAcc_win (v : Word) : (s.setAcc v).win = s.win := rfl
@[simp] theorem State.setAcc_err (v : Word) : (s.setAcc v).err = s.err := rfl
@[simp] theorem State.setAcc_fault (v : Word) : (s.setAcc v).fault = s.fault := rfl
@[simp] theorem State.setAcc_drop (v : Word) : (s.setAcc v).drop = s.drop := rfl
@[simp] theorem State.setAcc_basePage (v : Word) : (s.setAcc v).basePage = s.basePage := rfl
@[simp] theorem State.setAcc_pending (v : Word) : (s.setAcc v).pending = s.pending := rfl
@[simp] theorem State.setAcc_replies (v : Word) : (s.setAcc v).replies = s.replies := rfl

@[simp] theorem State.setWin_p (w : Vector Byte 4) : (s.setWin w).p = s.p := rfl
@[simp] theorem State.setWin_acc (w : Vector Byte 4) : (s.setWin w).acc = s.acc := rfl
@[simp] theorem State.setWin_win (w : Vector Byte 4) : (s.setWin w).win = w := rfl
@[simp] theorem State.setWin_err (w : Vector Byte 4) : (s.setWin w).err = s.err := rfl
@[simp] theorem State.setWin_fault (w : Vector Byte 4) : (s.setWin w).fault = s.fault := rfl
@[simp] theorem State.setWin_drop (w : Vector Byte 4) : (s.setWin w).drop = s.drop := rfl
@[simp] theorem State.setWin_basePage (w : Vector Byte 4) : (s.setWin w).basePage = s.basePage := rfl
@[simp] theorem State.setWin_pending (w : Vector Byte 4) : (s.setWin w).pending = s.pending := rfl
@[simp] theorem State.setWin_replies (w : Vector Byte 4) : (s.setWin w).replies = s.replies := rfl

@[simp] theorem State.raise_p (e : ErrorCause) : (s.raise e).p = s.p := rfl
@[simp] theorem State.raise_acc (e : ErrorCause) : (s.raise e).acc = s.acc := rfl
@[simp] theorem State.raise_win (e : ErrorCause) : (s.raise e).win = s.win := rfl
@[simp] theorem State.raise_err (e : ErrorCause) : (s.raise e).err = e.code := rfl
@[simp] theorem State.raise_fault (e : ErrorCause) : (s.raise e).fault = true := rfl
@[simp] theorem State.raise_drop (e : ErrorCause) : (s.raise e).drop = s.drop := rfl
@[simp] theorem State.raise_basePage (e : ErrorCause) : (s.raise e).basePage = s.basePage := rfl
@[simp] theorem State.raise_pending (e : ErrorCause) : (s.raise e).pending = s.pending := rfl
@[simp] theorem State.raise_replies (e : ErrorCause) : (s.raise e).replies = s.replies := rfl

@[simp] theorem State.dropCommand_p : (s.dropCommand).p = s.p := rfl
@[simp] theorem State.dropCommand_acc : (s.dropCommand).acc = s.acc := rfl
@[simp] theorem State.dropCommand_win : (s.dropCommand).win = s.win := rfl
@[simp] theorem State.dropCommand_err : (s.dropCommand).err = s.err := rfl
@[simp] theorem State.dropCommand_fault : (s.dropCommand).fault = s.fault := rfl
@[simp] theorem State.dropCommand_drop : (s.dropCommand).drop = true := rfl
@[simp] theorem State.dropCommand_basePage : (s.dropCommand).basePage = s.basePage := rfl
@[simp] theorem State.dropCommand_pending : (s.dropCommand).pending = s.pending := rfl
@[simp] theorem State.dropCommand_replies : (s.dropCommand).replies = s.replies := rfl

@[simp] theorem State.resetBlock_p : (s.resetBlock).p = Vector.replicate 8 0#33 := rfl
@[simp] theorem State.resetBlock_acc : (s.resetBlock).acc = 0#32 := rfl
@[simp] theorem State.resetBlock_win : (s.resetBlock).win = Vector.replicate 4 0#8 := rfl
@[simp] theorem State.resetBlock_err : (s.resetBlock).err = 0#4 := rfl
@[simp] theorem State.resetBlock_fault : (s.resetBlock).fault = false := rfl
@[simp] theorem State.resetBlock_drop : (s.resetBlock).drop = false := rfl
@[simp] theorem State.resetBlock_basePage : (s.resetBlock).basePage = s.basePage := rfl
@[simp] theorem State.resetBlock_pending : (s.resetBlock).pending = s.pending := rfl
@[simp] theorem State.resetBlock_replies : (s.resetBlock).replies = s.replies := rfl

/-- A register read after a register write (00_scope.md R13). -/
theorem State.reg_setReg (r q : Reg) (v : Poly) : (s.setReg r v).reg q = if q = r then v else s.reg q := by
  simp [State.setReg, State.reg, Vector.getElem_set, Fin.ext_iff, eq_comm]

@[simp] theorem State.reg_setReg_same (r : Reg) (v : Poly) : (s.setReg r v).reg r = v := by
  simp [State.reg_setReg]

theorem State.reg_setReg_other {r q : Reg} (v : Poly) (h : q ≠ r) : (s.setReg r v).reg q = s.reg q := by
  simp [State.reg_setReg, h]

@[simp] theorem State.reg_setAcc (v : Word) (q : Reg) : (s.setAcc v).reg q = s.reg q := rfl
@[simp] theorem State.reg_setWin (w : Vector Byte 4) (q : Reg) : (s.setWin w).reg q = s.reg q := rfl
@[simp] theorem State.reg_raise (e : ErrorCause) (q : Reg) : (s.raise e).reg q = s.reg q := rfl
@[simp] theorem State.reg_dropCommand (q : Reg) : s.dropCommand.reg q = s.reg q := rfl

@[simp] theorem State.reg_resetBlock (q : Reg) : s.resetBlock.reg q = 0#33 := by
  simp [State.reg]

/-- A register does not depend on the bus fields. -/
@[simp] theorem State.reg_withBus (b : Nat) (es : List BusEvent) (ws : List Word) (q : Reg) :
    ({ s with basePage := b, pending := es, replies := ws } : State).reg q = s.reg q := rfl

/-- Two register files with equal registers are equal. -/
theorem State.p_ext {s t : State} (h : ∀ r : Reg, t.reg r = s.reg r) : t.p = s.p := by
  apply Vector.ext
  intro i hi
  exact h ⟨i, hi⟩

end Sys2Proof.Machine
end

