-- ==== Sys2Proof/Laws/Ops.lean ====
section
/-! SUPPORT. For each shared operation of a command, everything it can do. -/

namespace Sys2Proof.Machine

/-- Outside the fault state a command takes its writes or raises its error (60_exceptions.md R230). -/
theorem runCommand_of_running {s : State} (h : s.fault = false) (effect : Except ErrorCause State) :
    runCommand s effect = match effect with
      | .ok t => .next t
      | .error e => .next (s.raise e) := by
  cases effect <;> simp [runCommand, h]

/-- In the fault state a command is dropped (60_exceptions.md R236). -/
theorem runCommand_of_fault {s : State} (h : s.fault = true) (effect : Except ErrorCause State) :
    runCommand s effect = .next s.dropCommand := by
  simp [runCommand, h]

@[simp] theorem runCommand_ok {s : State} (h : s.fault = false) (t : State) :
    runCommand s (.ok t) = .next t := by
  simp [runCommand, h]

@[simp] theorem runCommand_error {s : State} (h : s.fault = false) (e : ErrorCause) :
    runCommand s (.error e) = .next (s.raise e) := by
  simp [runCommand, h]

/-- Everything a command can do: it always answers a next state, which is the dropped, the completed or the failed
one. -/
theorem runCommand_cases (s : State) (effect : Except ErrorCause State) :
    (s.fault = true ∧ runCommand s effect = .next s.dropCommand) ∨
    (s.fault = false ∧ ∃ t, effect = .ok t ∧ runCommand s effect = .next t) ∨
    (s.fault = false ∧ ∃ e, effect = .error e ∧ runCommand s effect = .next (s.raise e)) := by
  cases hf : s.fault with
  | true => exact .inl ⟨rfl, runCommand_of_fault hf effect⟩
  | false =>
    cases effect with
    | ok t => exact .inr (.inl ⟨rfl, t, rfl, runCommand_ok hf t⟩)
    | error e => exact .inr (.inr ⟨rfl, e, rfl, runCommand_error hf e⟩)

/-- A 32-bit operand with bit 32 clear is bits 31:0 of its register (60_exceptions.md R233). -/
theorem operand32_of_clear {s : State} {r : Reg} (h : (s.reg r).getLsbD 32 = false) :
    operand32 s r = .ok ((s.reg r).setWidth 32) := by
  rw [operand32, if_neg (by rw [h]; exact Bool.false_ne_true)]

/-- A 32-bit operand with bit 32 set raises OperandRange (60_exceptions.md R233). -/
theorem operand32_of_set {s : State} {r : Reg} (h : (s.reg r).getLsbD 32 = true) :
    operand32 s r = .error .operandRange := by
  rw [operand32, if_pos h]

/-- A register whose bit 32 is clear holds a value below `2 ^ 32`. -/
theorem toNat_lt_of_clear {x : Poly} (h : x.getLsbD 32 = false) : x.toNat < 2 ^ 32 := by
  apply Nat.lt_pow_two_of_testBit
  intro i hi
  rcases Nat.eq_or_lt_of_le hi with rfl | hlt
  · exact h
  · exact BitVec.getLsbD_of_ge x i hlt

/-- A register's value with bit 32 clear is its bits 31:0. -/
theorem toNat_setWidth_of_clear {x : Poly} (h : x.getLsbD 32 = false) : (x.setWidth 32).toNat = x.toNat := by
  rw [BitVec.toNat_setWidth, Nat.mod_eq_of_lt (toNat_lt_of_clear h)]

/-- A 32-bit result is written with bit 32 clear (10_state.md R33). -/
theorem zext33_bit32 (v : Word) : (zext33 v).getLsbD 32 = false := by
  rw [zext33, BitVec.getLsbD_setWidth, BitVec.getLsbD_of_ge v 32 (Nat.le_refl 32), Bool.and_false]

theorem zext33_toNat (v : Word) : (zext33 v).toNat = v.toNat := by
  rw [zext33, BitVec.toNat_setWidth, Nat.mod_eq_of_lt (by have := v.isLt; omega)]

/-- The error codes are 1 to 4 (60_exceptions.md R232). -/
theorem ErrorCause.code_ne_zero (e : ErrorCause) : e.code ≠ 0#4 := by cases e <;> decide

theorem ErrorCause.code_le_four (e : ErrorCause) : e.code ≤ 4#4 := by cases e <;> decide

/-- The window bytes of a word put together again are the word (20_memory.md R66). -/
theorem winWord_setWin_windowOf (s : State) (v : Word) : (s.setWin (windowOf v)).winWord = v := by
  apply BitVec.eq_of_getLsbD_eq
  intro i hi
  simp only [State.winWord, State.setWin, windowOf, BitVec.getLsbD_append, byteOf, BitVec.getLsbD_extractLsb',
    Vector.getElem_mk, List.getElem_toArray, List.getElem_cons_zero, List.getElem_cons_succ]
  have hin : ∀ j k : Nat, k < 8 → j + k = i → (decide (k < 8) && v.getLsbD (j + k)) = v.getLsbD i := by
    intro j k hk hjk
    rw [hjk, decide_eq_true hk, Bool.true_and]
  split
  · exact hin _ _ (by omega) (by omega)
  split
  · exact hin _ _ (by omega) (by omega)
  split <;> exact hin _ _ (by omega) (by omega)

end Sys2Proof.Machine
end

