-- ==== Sys2Proof/Laws/Exec.lean ====
section
/-! SUPPORT. Everything that executing a command can do to the fields that no command's own writes touch. -/

namespace Sys2Proof.Machine

/-- The state with a command's writes keeps STATUS and everything around the block. -/
def keepsStatusAndBus (s : State) (effect : Except ErrorCause State) : Prop :=
  ∀ t, effect = .ok t → (t.err = s.err ∧ t.fault = s.fault ∧ t.drop = s.drop) ∧
    (t.basePage = s.basePage ∧ t.pending = s.pending ∧ t.replies = s.replies)

theorem keepsStatusAndBus_ok {s t : State}
    (h : (t.err = s.err ∧ t.fault = s.fault ∧ t.drop = s.drop) ∧
      (t.basePage = s.basePage ∧ t.pending = s.pending ∧ t.replies = s.replies)) :
    keepsStatusAndBus s (.ok t) := by
  intro u hu
  cases hu
  exact h

theorem keepsStatusAndBus_error (s : State) (e : ErrorCause) : keepsStatusAndBus s (.error e) := by
  intro t ht
  cases ht

/-- A sequence of a checked computation and a rest keeps what every result of the rest keeps. -/
theorem keepsStatusAndBus_bind {α : Type} {s : State} (x : Except ErrorCause α) {k : α → Except ErrorCause State}
    (h : ∀ a, keepsStatusAndBus s (k a)) : keepsStatusAndBus s (x >>= k) := by
  cases x with
  | error e => exact keepsStatusAndBus_error s e
  | ok a => exact h a

/-- Every command is one `runCommand` whose effect keeps STATUS and everything around the block
(60_exceptions.md R230). -/
theorem exec_eq_runCommand (i : Instr) (s : State) :
    ∃ effect, exec i s = runCommand s effect ∧ keepsStatusAndBus s effect := by
  cases i <;> simp only [exec, execNop, execLdi, execLdg, execPadd, execDeg, execDivr, execMulm, execPowm, execRecip,
    execCrcinit, execCrcbi, execCrcw, execCrcset, execCrcrd, execCrcraw, execRev32, execDelta, execApply, execWinld,
    execWinrd] <;> refine ⟨_, rfl, ?_⟩
  case divr =>
    split
    · exact keepsStatusAndBus_error s _
    · exact keepsStatusAndBus_bind _ fun _ => keepsStatusAndBus_ok ⟨⟨rfl, rfl, rfl⟩, rfl, rfl, rfl⟩
  all_goals
    repeat' with_reducible refine keepsStatusAndBus_bind _ fun _ => ?_
    exact keepsStatusAndBus_ok ⟨⟨rfl, rfl, rfl⟩, rfl, rfl, rfl⟩

/-- Everything a command can do to STATUS and to the bus: it always answers a next state, which is the dropped state,
the state with one error raised, or a state with STATUS and everything around the block unchanged. -/
theorem exec_cases (i : Instr) (s : State) :
    (s.fault = true ∧ exec i s = .next s.dropCommand) ∨
    (s.fault = false ∧ ∃ e, exec i s = .next (s.raise e)) ∨
    (s.fault = false ∧ ∃ t, exec i s = .next t ∧ (t.err = s.err ∧ t.fault = s.fault ∧ t.drop = s.drop) ∧
      (t.basePage = s.basePage ∧ t.pending = s.pending ∧ t.replies = s.replies)) := by
  obtain ⟨effect, he, hk⟩ := exec_eq_runCommand i s
  rw [he]
  rcases runCommand_cases s effect with ⟨hf, h⟩ | ⟨hf, t, ht, h⟩ | ⟨hf, e, -, h⟩
  · exact .inl ⟨hf, h⟩
  · exact .inr (.inr ⟨hf, t, h, hk t ht⟩)
  · exact .inr (.inl ⟨hf, e, h⟩)

end Sys2Proof.Machine
end

