-- ==== Sys2Proof/Laws/Gf2.lean ====
section
/-! SUPPORT. One equation per loop of the arithmetic units, free of the iteration count: any count at least the number
of bits of the loop's variable gives the same value (log entry 9). -/

namespace Sys2Proof.Machine

theorem bitLen_zero : bitLen 0 = 0 := rfl

theorem bitLen_of_ne_zero {n : Nat} (h : n ≠ 0) : bitLen n = n.log2 + 1 := by simp [bitLen, h]

/-- `bitLen n` is the least `k` with `n < 2 ^ k`. -/
theorem bitLen_le_iff {n k : Nat} : bitLen n ≤ k ↔ n < 2 ^ k := by
  by_cases h : n = 0
  · simp [h, bitLen_zero]
  · rw [bitLen_of_ne_zero h, Nat.succ_le_iff, Nat.log2_lt h]

theorem lt_two_pow_bitLen (n : Nat) : n < 2 ^ bitLen n := bitLen_le_iff.mp (Nat.le_refl _)

theorem shiftRight_one_lt {b n : Nat} (h : b < 2 ^ (n + 1)) : b >>> 1 < 2 ^ n := by
  rw [Nat.shiftRight_eq_div_pow]
  omega

@[simp] theorem clmul_zero_right (a : Nat) : clmul a 0 = 0 := rfl

theorem clmulBits_zero_left (b n : Nat) : clmulBits 0 b n = 0 := by
  induction n with
  | zero => rfl
  | succ n ih => simp [clmulBits, ih]

@[simp] theorem clmul_zero_left (b : Nat) : clmul 0 b = 0 := clmulBits_zero_left b _

/-- The first `n` partial products of a polynomial of degree at most `d` have degree below `d + n`. -/
theorem clmulBits_lt {a d : Nat} (h : a < 2 ^ (d + 1)) (b n : Nat) : clmulBits a b n < 2 ^ (d + n) := by
  induction n with
  | zero => exact Nat.two_pow_pos _
  | succ n ih =>
    refine Nat.xor_lt_two_pow (Nat.lt_of_lt_of_le ih (Nat.pow_le_pow_right (by decide) (by omega))) ?_
    split
    · rw [Nat.shiftLeft_eq, show d + (n + 1) = (d + 1) + n by omega, Nat.pow_add]
      exact Nat.mul_lt_mul_of_pos_right h (Nat.two_pow_pos n)
    · exact Nat.two_pow_pos _

/-- The highest bit of a carry-less product stands at the sum of the factors' degrees. -/
theorem clmul_testBit_top {a b : Nat} (ha : a ≠ 0) (hb : b ≠ 0) : (clmul a b).testBit (deg a + deg b) = true := by
  rw [clmul, bitLen_of_ne_zero hb, clmulBits, Nat.testBit_xor, show deg b = b.log2 from rfl]
  rw [Nat.testBit_lt_two_pow (clmulBits_lt (d := deg a) Nat.lt_log2_self b b.log2)]
  rw [if_pos (Nat.testBit_log2 hb)]
  simpa [deg] using Nat.testBit_log2 ha

@[simp] theorem mulmLoop_zero (n a z : Nat) : mulmLoop n a 0 z = z := by cases n <;> simp [mulmLoop]

/-- The accumulator of the multiplication loop is XORed to the product. -/
theorem mulmLoop_acc (n : Nat) : ∀ a b z : Nat, mulmLoop n a b z = z ^^^ mulmLoop n a b 0 := by
  induction n with
  | zero => intro a b z; simp [mulmLoop]
  | succ n ih =>
    intro a b z
    by_cases hb : b = 0
    · simp [mulmLoop, hb]
    · simp only [mulmLoop, hb, if_false]
      rw [ih _ _ (if b.testBit 0 then z ^^^ a else z), ih _ _ (if b.testBit 0 then 0 ^^^ a else 0)]
      split <;> simp [Nat.xor_assoc]

/-- More iterations than `b` has bits change nothing. -/
theorem mulmLoop_fuel (n : Nat) : ∀ m a b z : Nat, b < 2 ^ n → n ≤ m → mulmLoop m a b z = mulmLoop n a b z := by
  induction n with
  | zero =>
    intro m a b z hb _
    obtain rfl : b = 0 := by simpa using hb
    simp
  | succ n ih =>
    intro m a b z hb hm
    obtain ⟨m, rfl⟩ : ∃ k, m = k + 1 := ⟨m - 1, by omega⟩
    by_cases h0 : b = 0
    · simp [h0]
    · simp only [mulmLoop, h0, if_false]
      exact ih m _ _ _ (shiftRight_one_lt hb) (by omega)

theorem mulm_eq_loop {b n : Nat} (h : b < 2 ^ n) (a : Nat) : mulm a b = mulmLoop n a b 0 :=
  (mulmLoop_fuel (bitLen b) n a b 0 (lt_two_pow_bitLen b) (bitLen_le_iff.mpr h)).symm

@[simp] theorem mulm_zero_right (a : Nat) : mulm a 0 = 0 := by simp [mulm]

/-- One iteration of the multiplication (41_gf2_arith.md R142). -/
theorem mulm_step (a b : Nat) :
    mulm a b = (if b.testBit 0 then a else 0) ^^^ mulm (timesX a) (b >>> 1) := by
  by_cases hb : b = 0
  · simp [hb]
  · have h1 : b < 2 ^ (b.log2 + 1) := Nat.lt_log2_self
    rw [mulm_eq_loop h1, mulm_eq_loop (shiftRight_one_lt h1)]
    simp only [mulmLoop, hb, if_false]
    rw [mulmLoop_acc]
    split <;> simp

/-- A shift and reduction keeps a reduced polynomial reduced (41_gf2_arith.md R143). -/
theorem timesX_lt {a : Nat} (h : a < 2 ^ 32) : timesX a < 2 ^ 32 := by
  have hs : a <<< 1 < 2 ^ 33 := by rw [Nat.shiftLeft_eq]; omega
  apply Nat.lt_pow_two_of_testBit
  intro i hi
  have hg : i ≠ 32 → gNat.testBit i = false := by
    intro hne
    exact Nat.testBit_lt_two_pow (Nat.lt_of_lt_of_le (by decide : gNat < 2 ^ 33)
      (Nat.pow_le_pow_right (by decide) (by omega)))
  have ha : i ≠ 32 → (a <<< 1).testBit i = false := by
    intro hne
    exact Nat.testBit_lt_two_pow (Nat.lt_of_lt_of_le hs (Nat.pow_le_pow_right (by decide) (by omega)))
  unfold timesX
  by_cases h32 : i = 32
  · subst h32
    split
    · rename_i ht
      rw [Nat.testBit_xor, ht, show gNat.testBit 32 = true from by decide]
      rfl
    · rename_i ht
      simpa using ht
  · split
    · rw [Nat.testBit_xor, ha h32, hg h32]
      rfl
    · exact ha h32

/-- A product with a reduced first factor is reduced (41_gf2_arith.md R143). -/
theorem mulmLoop_lt (n : Nat) : ∀ a b z : Nat, a < 2 ^ 32 → z < 2 ^ 32 → mulmLoop n a b z < 2 ^ 32 := by
  induction n with
  | zero => intro a b z _ hz; exact hz
  | succ n ih =>
    intro a b z ha hz
    by_cases hb : b = 0
    · simpa [mulmLoop, hb] using hz
    · simp only [mulmLoop, hb, if_false]
      refine ih _ _ _ (timesX_lt ha) ?_
      split
      · exact Nat.xor_lt_two_pow hz ha
      · exact hz

/-- The accumulator of the exponentiation loop stays reduced. -/
theorem powmLoop_lt (n : Nat) : ∀ a e z : Nat, a < 2 ^ 32 → z < 2 ^ 32 → powmLoop n a e z < 2 ^ 32 := by
  induction n with
  | zero => intro a e z _ hz; exact hz
  | succ n ih =>
    intro a e z ha hz
    by_cases he : e = 0
    · simpa [powmLoop, he] using hz
    · simp only [powmLoop, he, if_false]
      refine ih _ _ _ (mulmLoop_lt _ _ _ _ ha (by decide)) ?_
      split
      · exact mulmLoop_lt _ _ _ _ hz (by decide)
      · exact hz

@[simp] theorem powmLoop_zero (n a z : Nat) : powmLoop n a 0 z = z := by cases n <;> simp [powmLoop]

/-- More iterations than `e` has bits change nothing. -/
theorem powmLoop_fuel (n : Nat) : ∀ m a e z : Nat, e < 2 ^ n → n ≤ m → powmLoop m a e z = powmLoop n a e z := by
  induction n with
  | zero =>
    intro m a e z he _
    obtain rfl : e = 0 := by simpa using he
    simp
  | succ n ih =>
    intro m a e z he hm
    obtain ⟨m, rfl⟩ : ∃ k, m = k + 1 := ⟨m - 1, by omega⟩
    by_cases h0 : e = 0
    · simp [h0]
    · simp only [powmLoop, h0, if_false]
      exact ih m _ _ _ (shiftRight_one_lt he) (by omega)

theorem powm_eq_loop {e n : Nat} (h : e < 2 ^ n) (a : Nat) : powm a e = powmLoop n a e 1 :=
  (powmLoop_fuel (bitLen e) n a e 1 (lt_two_pow_bitLen e) (bitLen_le_iff.mpr h)).symm

/-- The divisor's check comes first, even for a zero dividend (41_gf2_arith.md R141; 90_conflicts.md C6). -/
theorem divrem_zero (a : Nat) : divrem a 0 = .error .divisionByZero := rfl

theorem divrem_of_ne_zero {b : Nat} (h : b ≠ 0) (a : Nat) : divrem a b = .ok (longDivide a b) := by
  simp [divrem, h]

@[simp] theorem recipLoop_zero (n x s t : Nat) : recipLoop n x 0 s t = (x, s) := by cases n <;> simp [recipLoop]

/-- The reciprocal of 0 does not exist (41_gf2_arith.md R154). -/
theorem recip_zero : recip 0 = .error .noReciprocal := by decide

end Sys2Proof.Machine
end

