-- ==== Sys2Proof/Laws/PerInstr.lean ====
section
/-! SUPPORT. The statements made per instruction: one lemma per constructor of `Instr`. -/

/-- The word of a well-formed command decodes to that command (30_encoding.md R91, R94 to R97). -/
def Sys2Proof.Laws.RoundTrip.Statement (i : Sys2Proof.Instr) : Prop :=
  i.wellFormed = true → Sys2Proof.decode (Sys2Proof.encode i) = .ok i

namespace Sys2Proof.Laws.RoundTrip

open Sys2Proof

theorem nop : Statement (.nop) := fun h =>
  decode_of_row (row := ⟨0x00#8, .n, fun _ _ _ _ _ => .nop⟩)
    (by rw [encode, opField_encodeFields]; rfl) (by simp [encode, OpcodeRow.matchWord]) rfl h

theorem ldi (rd : Reg) (imm8 : Byte) : Statement (.ldi rd imm8) := fun h =>
  decode_of_row (row := ⟨0x01#8, .ri, fun rd _ _ _ imm8 => .ldi rd imm8⟩)
    (by rw [encode, opField_encodeFields]; rfl) (by simp [encode, OpcodeRow.matchWord]) (by simp [encode]) h

theorem ldg (rd : Reg) : Statement (.ldg rd) := fun h =>
  decode_of_row (row := ⟨0x02#8, .r, fun rd _ _ _ _ => .ldg rd⟩)
    (by rw [encode, opField_encodeFields]; rfl) (by simp [encode, OpcodeRow.matchWord]) (by simp [encode]) h

theorem padd (rd rs1 rs2 : Reg) : Statement (.padd rd rs1 rs2) := fun h =>
  decode_of_row (row := ⟨0x03#8, .rrr, fun rd rs1 rs2 _ _ => .padd rd rs1 rs2⟩)
    (by rw [encode, opField_encodeFields]; rfl) (by simp [encode, OpcodeRow.matchWord]) (by simp [encode]) h

theorem deg (rd rs1 : Reg) : Statement (.deg rd rs1) := fun h =>
  decode_of_row (row := ⟨0x10#8, .rr, fun rd rs1 _ _ _ => .deg rd rs1⟩)
    (by rw [encode, opField_encodeFields]; rfl) (by simp [encode, OpcodeRow.matchWord]) (by simp [encode]) h

theorem divr (rd rd2 rs1 rs2 : Reg) : Statement (.divr rd rd2 rs1 rs2) := fun h =>
  decode_of_row (row := ⟨0x11#8, .dd, fun rd rs1 rs2 rd2 _ => .divr rd rd2 rs1 rs2⟩)
    (by rw [encode, opField_encodeFields]; rfl) (by simp [encode, OpcodeRow.matchWord]) (by simp [encode]) h

theorem mulm (rd rs1 rs2 : Reg) : Statement (.mulm rd rs1 rs2) := fun h =>
  decode_of_row (row := ⟨0x12#8, .rrr, fun rd rs1 rs2 _ _ => .mulm rd rs1 rs2⟩)
    (by rw [encode, opField_encodeFields]; rfl) (by simp [encode, OpcodeRow.matchWord]) (by simp [encode]) h

theorem powm (rd rs1 rs2 : Reg) : Statement (.powm rd rs1 rs2) := fun h =>
  decode_of_row (row := ⟨0x13#8, .rrr, fun rd rs1 rs2 _ _ => .powm rd rs1 rs2⟩)
    (by rw [encode, opField_encodeFields]; rfl) (by simp [encode, OpcodeRow.matchWord]) (by simp [encode]) h

theorem recip (rd rs1 : Reg) : Statement (.recip rd rs1) := fun h =>
  decode_of_row (row := ⟨0x14#8, .rr, fun rd rs1 _ _ _ => .recip rd rs1⟩)
    (by rw [encode, opField_encodeFields]; rfl) (by simp [encode, OpcodeRow.matchWord]) (by simp [encode]) h

theorem crcinit : Statement (.crcinit) := fun h =>
  decode_of_row (row := ⟨0x20#8, .n, fun _ _ _ _ _ => .crcinit⟩)
    (by rw [encode, opField_encodeFields]; rfl) (by simp [encode, OpcodeRow.matchWord]) rfl h

theorem crcbi (imm8 : Byte) : Statement (.crcbi imm8) := fun h =>
  decode_of_row (row := ⟨0x21#8, .i, fun _ _ _ _ imm8 => .crcbi imm8⟩)
    (by rw [encode, opField_encodeFields]; rfl) (by simp [encode, OpcodeRow.matchWord]) (by simp [encode]) h

theorem crcw (rs1 : Reg) : Statement (.crcw rs1) := fun h =>
  decode_of_row (row := ⟨0x22#8, .s, fun _ rs1 _ _ _ => .crcw rs1⟩)
    (by rw [encode, opField_encodeFields]; rfl) (by simp [encode, OpcodeRow.matchWord]) (by simp [encode]) h

theorem crcset (rs1 : Reg) : Statement (.crcset rs1) := fun h =>
  decode_of_row (row := ⟨0x23#8, .s, fun _ rs1 _ _ _ => .crcset rs1⟩)
    (by rw [encode, opField_encodeFields]; rfl) (by simp [encode, OpcodeRow.matchWord]) (by simp [encode]) h

theorem crcrd (rd : Reg) : Statement (.crcrd rd) := fun h =>
  decode_of_row (row := ⟨0x24#8, .r, fun rd _ _ _ _ => .crcrd rd⟩)
    (by rw [encode, opField_encodeFields]; rfl) (by simp [encode, OpcodeRow.matchWord]) (by simp [encode]) h

theorem crcraw (rd : Reg) : Statement (.crcraw rd) := fun h =>
  decode_of_row (row := ⟨0x25#8, .r, fun rd _ _ _ _ => .crcraw rd⟩)
    (by rw [encode, opField_encodeFields]; rfl) (by simp [encode, OpcodeRow.matchWord]) (by simp [encode]) h

theorem rev32 (rd rs1 : Reg) : Statement (.rev32 rd rs1) := fun h =>
  decode_of_row (row := ⟨0x26#8, .rr, fun rd rs1 _ _ _ => .rev32 rd rs1⟩)
    (by rw [encode, opField_encodeFields]; rfl) (by simp [encode, OpcodeRow.matchWord]) (by simp [encode]) h

theorem delta (rd rs1 rs2 rs3 : Reg) : Statement (.delta rd rs1 rs2 rs3) := fun h =>
  decode_of_row (row := ⟨0x30#8, .rrrr, fun rd rs1 rs2 rs3 _ => .delta rd rs1 rs2 rs3⟩)
    (by rw [encode, opField_encodeFields]; rfl) (by simp [encode, OpcodeRow.matchWord]) (by simp [encode]) h

theorem apply (rs1 : Reg) : Statement (.apply rs1) := fun h =>
  decode_of_row (row := ⟨0x31#8, .s, fun _ rs1 _ _ _ => .apply rs1⟩)
    (by rw [encode, opField_encodeFields]; rfl) (by simp [encode, OpcodeRow.matchWord]) (by simp [encode]) h

theorem winld (rs1 : Reg) : Statement (.winld rs1) := fun h =>
  decode_of_row (row := ⟨0x32#8, .s, fun _ rs1 _ _ _ => .winld rs1⟩)
    (by rw [encode, opField_encodeFields]; rfl) (by simp [encode, OpcodeRow.matchWord]) (by simp [encode]) h

theorem winrd (rd : Reg) : Statement (.winrd rd) := fun h =>
  decode_of_row (row := ⟨0x33#8, .r, fun rd _ _ _ _ => .winrd rd⟩)
    (by rw [encode, opField_encodeFields]; rfl) (by simp [encode, OpcodeRow.matchWord]) (by simp [encode]) h

end Sys2Proof.Laws.RoundTrip
end

