-- ==== Sys2Proof/Laws/Step.lean ====
section
/-! SUPPORT. What a bus event and a step can do. -/

namespace Sys2Proof.Machine

/-- A command word always answers a next state: dropped, one error raised, or the decoded command's
(60_exceptions.md R230). -/
theorem execWord_cases (w : Word) (s : State) :
    (s.fault = true ∧ execWord w s = .next s.dropCommand) ∨
    (s.fault = false ∧ (∃ x, decode w = .error x) ∧ execWord w s = .next (s.raise .illegalCommand)) ∨
    (s.fault = false ∧ ∃ i, decode w = .ok i ∧ execWord w s = exec i s) := by
  unfold execWord
  cases hf : s.fault with
  | true => exact .inl ⟨rfl, by rw [if_pos rfl]⟩
  | false =>
    cases hd : decode w with
    | error x => exact .inr (.inl ⟨rfl, ⟨x, rfl⟩, by simp⟩)
    | ok i => exact .inr (.inr ⟨rfl, i, rfl, by simp⟩)

/-- What a command word can do to STATUS and to the bus. -/
theorem execWord_status (w : Word) (s : State) :
    (s.fault = true ∧ execWord w s = .next s.dropCommand) ∨
    (s.fault = false ∧ ∃ e, execWord w s = .next (s.raise e)) ∨
    (s.fault = false ∧ ∃ t, execWord w s = .next t ∧ (t.err = s.err ∧ t.fault = s.fault ∧ t.drop = s.drop) ∧
      (t.basePage = s.basePage ∧ t.pending = s.pending ∧ t.replies = s.replies)) := by
  rcases execWord_cases w s with h | ⟨hf, -, h⟩ | ⟨hf, i, -, h⟩
  · exact .inl h
  · exact .inr (.inl ⟨hf, _, h⟩)
  · rw [h]
    exact exec_cases i s

/-- An admitted access runs at its window offset (20_memory.md R61). -/
theorem admitAccess_of_admitted {s : State} {off : Nat} (h : off < 256) (h4 : off % 4 = 0)
    (k : Nat → Host.Outcome State Fault Refusal) : admitAccess s (s.base + off) .word k = k off := by
  have h1 : ¬ (s.base + off < s.base ∨ s.base + Config.windowSize ≤ s.base + off) := by
    simp only [Config.windowSize]
    omega
  rw [admitAccess, if_neg h1, if_neg (by simp), Nat.add_sub_cancel_left, if_neg (by simp [h4])]

/-- An access is admitted or stops (20_memory.md R61, R71). -/
theorem admitAccess_cases (s : State) (addr : Nat) (size : AccessSize)
    (k : Nat → Host.Outcome State Fault Refusal) :
    (∃ off, off < 256 ∧ off % 4 = 0 ∧ addr = s.base + off ∧ size = .word ∧
      admitAccess s addr size k = k off) ∨
    (∃ f, admitAccess s addr size k = .fault f) ∨ (∃ r, admitAccess s addr size k = .refused r) := by
  unfold admitAccess
  split
  · exact .inr (.inl ⟨_, rfl⟩)
  split
  · exact .inr (.inr ⟨_, rfl⟩)
  split
  · exact .inr (.inr ⟨_, rfl⟩)
  · rename_i h1 h2 h3
    simp only [Config.windowSize] at h1
    refine .inl ⟨addr - s.base, by omega, by omega, by omega, by simpa using h2, rfl⟩

/-- With no event pending the step changes nothing (60_exceptions.md R245). -/
theorem step_idle {s : State} (h : s.pending = []) : step s = .next s := by
  rw [step, h]

/-- A step runs the earliest pending event on the state without it. -/
theorem step_event {s : State} {e : BusEvent} {rest : List BusEvent} (h : s.pending = e :: rest) :
    step s = runEvent e { s with pending := rest } := by
  rw [step, h]

/-- A pending admitted read returns its word to the host (20_memory.md R61). -/
theorem step_read {s : State} {rest : List BusEvent} {off : Nat}
    (hp : s.pending = .read (s.base + off) .word :: rest) (h : off < 256) (h4 : off % 4 = 0) :
    step s = .next { s with pending := rest, replies := s.replies ++ [hostRead off s] } := by
  rw [step_event hp]
  exact admitAccess_of_admitted (s := { s with pending := rest }) h h4
    (fun off => .next { s with pending := rest, replies := s.replies ++ [hostRead off s] })

/-- A pending admitted write acts on the window (20_memory.md R61). -/
theorem step_write {s : State} {rest : List BusEvent} {off : Nat} {v : Word}
    (hp : s.pending = .write (s.base + off) .word v :: rest) (h : off < 256) (h4 : off % 4 = 0) :
    step s = hostWrite off v { s with pending := rest } := by
  rw [step_event hp]
  exact admitAccess_of_admitted (s := { s with pending := rest }) h h4
    (fun off => hostWrite off v { s with pending := rest })

/-- The word put before the machine is executed by the very next step. -/
theorem step_withFetchWord (s : State) (nbits w : Nat) :
    step (s.withFetchWord nbits w) = execWord (tableWord nbits w) s :=
  step_write (s := s.withFetchWord nbits w) (rest := s.pending) (off := 0x08) rfl (by decide) (by decide)

/-- The offset of PnLO is `0x20 + 8n` and that of PnHI `0x24 + 8n` (20_memory.md R62). -/
theorem windowReg_polyLo (n : Reg) : windowReg (0x20 + 8 * n.val) = .polyLo n := by
  revert n
  decide

theorem windowReg_polyHi (n : Reg) : windowReg (0x24 + 8 * n.val) = .polyHi n := by
  revert n
  decide

/-- A reserved offset is no register (20_memory.md R62, R69). -/
theorem windowReg_reserved {off : Nat} (h : (0x14 ≤ off ∧ off < 0x20) ∨ 0x60 ≤ off) : windowReg off = .reserved := by
  unfold windowReg
  repeat' split
  all_goals first | rfl | omega

/-- Everything a window register can be, with its offset (20_memory.md R62). -/
theorem windowReg_cases {off : Nat} (h4 : off % 4 = 0) :
    (off = 0x00 ∧ windowReg off = .ctrl) ∨ (off = 0x04 ∧ windowReg off = .status) ∨
    (off = 0x08 ∧ windowReg off = .cmd) ∨ (off = 0x0C ∧ windowReg off = .win) ∨
    (off = 0x10 ∧ windowReg off = .acc) ∨
    (∃ n : Reg, off = 0x20 + 8 * n.val ∧ windowReg off = .polyLo n) ∨
    (∃ n : Reg, off = 0x24 + 8 * n.val ∧ windowReg off = .polyHi n) ∨
    (((0x14 ≤ off ∧ off < 0x20) ∨ 0x60 ≤ off) ∧ windowReg off = .reserved) := by
  by_cases hlow : off < 0x20
  · have hm : off = 0x00 ∨ off = 0x04 ∨ off = 0x08 ∨ off = 0x0C ∨ off = 0x10 ∨ 0x14 ≤ off := by omega
    rcases hm with rfl | rfl | rfl | rfl | rfl | hr
    · exact .inl ⟨rfl, rfl⟩
    · exact .inr (.inl ⟨rfl, rfl⟩)
    · exact .inr (.inr (.inl ⟨rfl, rfl⟩))
    · exact .inr (.inr (.inr (.inl ⟨rfl, rfl⟩)))
    · exact .inr (.inr (.inr (.inr (.inl ⟨rfl, rfl⟩))))
    · exact .inr (.inr (.inr (.inr (.inr (.inr (.inr
        ⟨.inl ⟨hr, hlow⟩, windowReg_reserved (.inl ⟨hr, hlow⟩)⟩))))))
  · by_cases hhigh : 0x60 ≤ off
    · exact .inr (.inr (.inr (.inr (.inr (.inr (.inr ⟨.inr hhigh, windowReg_reserved (.inr hhigh)⟩))))))
    · by_cases h8 : off % 8 = 0
      · have hoff : off = 0x20 + 8 * ((off - 0x20) / 8) := by omega
        refine .inr (.inr (.inr (.inr (.inr (.inl ⟨⟨(off - 0x20) / 8, by omega⟩, hoff, ?_⟩)))))
        conv_lhs => rw [hoff]
        exact windowReg_polyLo ⟨(off - 0x20) / 8, by omega⟩
      · have hoff : off = 0x24 + 8 * ((off - 0x24) / 8) := by omega
        refine .inr (.inr (.inr (.inr (.inr (.inr (.inl ⟨⟨(off - 0x24) / 8, by omega⟩, hoff, ?_⟩))))))
        conv_lhs => rw [hoff]
        exact windowReg_polyHi ⟨(off - 0x24) / 8, by omega⟩

/-- Everything a window write can do (20_memory.md R63 to R69): execute a command word, reset the block, write the
window or one half of a register, or nothing. -/
theorem hostWrite_cases {off : Nat} (h4 : off % 4 = 0) (v : Word) (s : State) :
    (off = 0x08 ∧ hostWrite off v s = execWord v s) ∨
    (off = 0x00 ∧ v.getLsbD 0 = true ∧ hostWrite off v s = .next s.resetBlock) ∨
    (off = 0x0C ∧ hostWrite off v s = .next (s.setWin (windowOf v))) ∨
    (∃ n : Reg, off = 0x20 + 8 * n.val ∧ hostWrite off v s = .next (s.setReg n (withLow (s.reg n) v))) ∨
    (∃ n : Reg, off = 0x24 + 8 * n.val ∧ hostWrite off v s = .next (s.setReg n (withHigh (s.reg n) v))) ∨
    ((off = 0x00 → v.getLsbD 0 = false) ∧ hostWrite off v s = .next s) := by
  rcases windowReg_cases h4 with ⟨h, hr⟩ | ⟨h, hr⟩ | ⟨h, hr⟩ | ⟨h, hr⟩ | ⟨h, hr⟩ | ⟨n, h, hr⟩ | ⟨n, h, hr⟩ | ⟨h, hr⟩
  · cases hv : v.getLsbD 0 with
    | true => exact .inr (.inl ⟨h, rfl, by rw [hostWrite, hr]; exact if_pos hv⟩)
    | false =>
      exact .inr (.inr (.inr (.inr (.inr ⟨fun _ => rfl, by
        rw [hostWrite, hr]; exact if_neg (by rw [hv]; exact Bool.false_ne_true)⟩))))
  · exact .inr (.inr (.inr (.inr (.inr ⟨fun h0 => by omega, by rw [hostWrite, hr]⟩))))
  · exact .inl ⟨h, by rw [hostWrite, hr]⟩
  · exact .inr (.inr (.inl ⟨h, by rw [hostWrite, hr]⟩))
  · exact .inr (.inr (.inr (.inr (.inr ⟨fun h0 => by omega, by rw [hostWrite, hr]⟩))))
  · exact .inr (.inr (.inr (.inl ⟨n, h, by rw [hostWrite, hr]⟩)))
  · exact .inr (.inr (.inr (.inr (.inl ⟨n, h, by rw [hostWrite, hr]⟩))))
  · exact .inr (.inr (.inr (.inr (.inr ⟨fun h0 => by omega, by rw [hostWrite, hr]⟩))))

/-- Everything a bus event can answer as a next state: the block reset by the platform, a word read, or what a window
write answers. -/
theorem runEvent_cases {s t : State} {e : BusEvent} (h : runEvent e s = .next t) :
    (e = .hardReset ∧ t = s.resetBlock) ∨
    (∃ off, off < 256 ∧ off % 4 = 0 ∧ e = .read (s.base + off) .word ∧
      t = { s with replies := s.replies ++ [hostRead off s] }) ∨
    (∃ off v, off < 256 ∧ off % 4 = 0 ∧ e = .write (s.base + off) .word v ∧ hostWrite off v s = .next t) := by
  cases e with
  | hardReset =>
    cases h
    exact .inl ⟨rfl, rfl⟩
  | read addr size =>
    rcases admitAccess_cases s addr size (fun off => .next { s with replies := s.replies ++ [hostRead off s] })
      with ⟨off, h1, h2, rfl, rfl, h3⟩ | ⟨_, h3⟩ | ⟨_, h3⟩
    · cases h3.symm.trans h
      exact .inr (.inl ⟨off, h1, h2, rfl, rfl⟩)
    · cases h3.symm.trans h
    · cases h3.symm.trans h
  | write addr size v =>
    rcases admitAccess_cases s addr size (fun off => hostWrite off v s)
      with ⟨off, h1, h2, rfl, rfl, h3⟩ | ⟨_, h3⟩ | ⟨_, h3⟩
    · exact .inr (.inr ⟨off, v, h1, h2, rfl, h3.symm.trans h⟩)
    · cases h3.symm.trans h
    · cases h3.symm.trans h

/-- A step that answers a next state is idle or is the earliest event's. -/
theorem step_cases {s t : State} (h : step s = .next t) :
    (s.pending = [] ∧ t = s) ∨
    ∃ e rest, s.pending = e :: rest ∧ runEvent e { s with pending := rest } = .next t := by
  cases hp : s.pending with
  | nil =>
    rw [step_idle hp] at h
    cases h
    exact .inl ⟨rfl, rfl⟩
  | cons e rest =>
    rw [step_event hp] at h
    exact .inr ⟨e, rest, rfl, h⟩

end Sys2Proof.Machine
end

