-- ==== Sys2Proof/Machine/Assembly.lean ====
section
/-! DEFINITION. The assembly notation of one command (30_encoding.md R101): a line of text and the command it stands
for. The text is a notation for the command words only (00_scope.md R10), and no step of the machine reads it. What
the spec leaves open about white space is log entry 10. -/

namespace Sys2Proof.Machine

/-- White space between the parts of a line (log entry 10). -/
def isBlank (c : Char) : Bool := c == ' ' || c == '\t'

/-- The text before the first `;`, which starts a comment (30_encoding.md R101). -/
def dropComment (line : List Char) : List Char := line.takeWhile (· != ';')

/-- A text without the white space at its two ends. -/
def trimBlanks (text : List Char) : List Char :=
  ((text.dropWhile isBlank).reverse.dropWhile isBlank).reverse

/-- The operand texts of a comma-separated list (30_encoding.md R101). -/
def splitCommas : List Char → List (List Char)
  | [] => [[]]
  | c :: rest =>
    match splitCommas rest with
    | [] => [[c]]
    | first :: others => if c = ',' then [] :: first :: others else (c :: first) :: others

/-- The value of a digit in a base up to 16. -/
def digitValue (base : Nat) (c : Char) : Option Nat :=
  let v :=
    if '0' ≤ c ∧ c ≤ '9' then c.toNat - '0'.toNat
    else if 'a' ≤ c ∧ c ≤ 'f' then c.toNat - 'a'.toNat + 10
    else if 'A' ≤ c ∧ c ≤ 'F' then c.toNat - 'A'.toNat + 10
    else 16
  if v < base then some v else none

/-- The digits of a number, the most significant first, added to what came before. -/
def digitsValue (base : Nat) : List Char → Nat → Option Nat
  | [], acc => some acc
  | c :: rest, acc =>
    match digitValue base c with
    | some v => digitsValue base rest (acc * base + v)
    | none => none

/-- An immediate: decimal, hexadecimal with `0x` or binary with `0b`, in 0 to 255 (30_encoding.md R101). -/
def parseImmediate (text : List Char) : Option Byte :=
  let value :=
    match text with
    | [] => none
    | ['0', 'x'] => none
    | ['0', 'b'] => none
    | '0' :: 'x' :: digits => digitsValue 16 digits 0
    | '0' :: 'b' :: digits => digitsValue 2 digits 0
    | digits => digitsValue 10 digits 0
  match value with
  | some v => if v ≤ 255 then some (BitVec.ofNat 8 v) else none
  | none => none

/-- A register, `p0` to `p7` or `P0` to `P7` (30_encoding.md R101). -/
def parseReg (text : List Char) : Option Reg :=
  match text with
  | [p, d] =>
    if p = 'p' ∨ p = 'P' then
      match digitValue 8 d with
      | some v => some (Fin.ofNat 8 v)
      | none => none
    else none
  | _ => none

/-- Every text of a list as a register. -/
def parseRegs : List (List Char) → Option (List Reg)
  | [] => some []
  | text :: rest =>
    match parseReg text, parseRegs rest with
    | some r, some rs => some (r :: rs)
    | _, _ => none

/-- A mnemonic in capitals with its operand texts, as a command: the operands stand in the order of the format's
assembly operands (30_encoding.md R94, R101). -/
def assembleParts (mnemonic : List Char) (operands : List (List Char)) : Option Instr :=
  if mnemonic = ['L', 'D', 'I'] then
    match operands with
    | [rd, imm] =>
      match parseReg rd, parseImmediate imm with
      | some rd, some imm => some (.ldi rd imm)
      | _, _ => none
    | _ => none
  else if mnemonic = ['C', 'R', 'C', 'B', 'I'] then
    match operands with
    | [imm] => (parseImmediate imm).map .crcbi
    | _ => none
  else
    match parseRegs operands with
    | none => none
    | some [] =>
      if mnemonic = ['N', 'O', 'P'] then some .nop
      else if mnemonic = ['C', 'R', 'C', 'I', 'N', 'I', 'T'] then some .crcinit
      else none
    | some [a] =>
      if mnemonic = ['L', 'D', 'G'] then some (.ldg a)
      else if mnemonic = ['C', 'R', 'C', 'W'] then some (.crcw a)
      else if mnemonic = ['C', 'R', 'C', 'S', 'E', 'T'] then some (.crcset a)
      else if mnemonic = ['C', 'R', 'C', 'R', 'D'] then some (.crcrd a)
      else if mnemonic = ['C', 'R', 'C', 'R', 'A', 'W'] then some (.crcraw a)
      else if mnemonic = ['A', 'P', 'P', 'L', 'Y'] then some (.apply a)
      else if mnemonic = ['W', 'I', 'N', 'L', 'D'] then some (.winld a)
      else if mnemonic = ['W', 'I', 'N', 'R', 'D'] then some (.winrd a)
      else none
    | some [a, b] =>
      if mnemonic = ['D', 'E', 'G'] then some (.deg a b)
      else if mnemonic = ['R', 'E', 'C', 'I', 'P'] then some (.recip a b)
      else if mnemonic = ['R', 'E', 'V', '3', '2'] then some (.rev32 a b)
      else none
    | some [a, b, c] =>
      if mnemonic = ['P', 'A', 'D', 'D'] then some (.padd a b c)
      else if mnemonic = ['M', 'U', 'L', 'M'] then some (.mulm a b c)
      else if mnemonic = ['P', 'O', 'W', 'M'] then some (.powm a b c)
      else none
    | some [a, b, c, d] =>
      if mnemonic = ['D', 'I', 'V', 'R'] then some (.divr a b c d)
      else if mnemonic = ['D', 'E', 'L', 'T', 'A'] then some (.delta a b c d)
      else none
    | some _ => none

/-- The command that a line of text stands for, or none: a mnemonic in any case, white space, the operands separated
by commas, then perhaps a comment (30_encoding.md R101). A DIVR with equal destinations has no legal word
(30_encoding.md R97) and is rejected. -/
def assemble (line : List Char) : Option Instr :=
  let text := trimBlanks (dropComment line)
  let mnemonic := (text.takeWhile (fun c => !isBlank c)).map Char.toUpper
  let operandText := trimBlanks (text.dropWhile (fun c => !isBlank c))
  let operands := if operandText = [] then [] else (splitCommas operandText).map trimBlanks
  match assembleParts mnemonic operands with
  | some i => if i.wellFormed then some i else none
  | none => none

end Sys2Proof.Machine
end

