-- ==== Sys2Proof/Machine/HostOps.lean ====
section
/-! DEFINITION. The host's vocabulary: the pseudo-instructions, which expand to commands (30_encoding.md R102), the
host-level operations, which expand to host accesses (30_encoding.md R103), and the host sequence that realises the
orchestrator on the block (70_reset_and_hazards.md R264). They are what a host issues; the block sees only the
commands and accesses they expand to. Each operation takes BASE, and `if … goto` is the host's own control flow, which
the block does not see. -/

namespace Sys2Proof.Machine

/-- `CLR rd` (30_encoding.md R102). -/
def pseudoClr (rd : Reg) : List Instr := [.ldi rd 0#8]

/-- `MOV rd, rs` (30_encoding.md R102). -/
def pseudoMov (rd rs : Reg) : List Instr :=
  if rd = rs then [.nop] else [.ldi rd 0#8, .padd rd rd rs]

/-- `CRCZ4 rz`; `rz` must hold 0 (30_encoding.md R102). -/
def pseudoCrcz4 (rz : Reg) : List Instr := [.crcw rz]

/-- `cmd <command>` (30_encoding.md R103). -/
def hostCmd (base : Nat) (i : Instr) : List BusEvent := [.write (base + 0x08) .word (encode i)]

/-- `poke pN, v`: both halves of a register (30_encoding.md R103). -/
def hostPoke (base : Nat) (n : Reg) (v : Poly) : List BusEvent :=
  [ .write (base + 0x20 + 8 * n.val) .word (v.setWidth 32),
    .write (base + 0x24 + 8 * n.val) .word ((BitVec.ofBool (v.getLsbD 32)).setWidth 32) ]

/-- `peek pN`: the two reads of a register's halves (30_encoding.md R103). -/
def hostPeek (base : Nat) (n : Reg) : List BusEvent :=
  [.read (base + 0x20 + 8 * n.val) .word, .read (base + 0x24 + 8 * n.val) .word]

/-- The value that `peek` gives from the words its two reads return (30_encoding.md R103). -/
def peekValue (lo hi : Word) : Poly := hi.extractLsb' 0 1 ++ lo

/-- `winwr v` (30_encoding.md R103). -/
def hostWinwr (base : Nat) (v : Word) : List BusEvent := [.write (base + 0x0C) .word v]

/-- `winrd` (30_encoding.md R103). -/
def hostWinrd (base : Nat) : List BusEvent := [.read (base + 0x0C) .word]

/-- `accrd` (30_encoding.md R103). -/
def hostAccrd (base : Nat) : List BusEvent := [.read (base + 0x10) .word]

/-- `status` (30_encoding.md R103). -/
def hostStatus (base : Nat) : List BusEvent := [.read (base + 0x04) .word]

/-- `srst` (30_encoding.md R103). -/
def hostSrst (base : Nat) : List BusEvent := [.write (base + 0x00) .word 1#32]

/-- Fold a byte sequence (70_reset_and_hazards.md R264). The rule lets the host use CRCBI or CRCW; one CRCBI a byte is
the model's choice (DESIGN CHOICE, log entry 15). -/
def hostFold (base : Nat) (bytes : List Byte) : List BusEvent :=
  bytes.flatMap (fun b => hostCmd base (.crcbi b))

/-- The host sequence of 70_reset_and_hazards.md R264 for the original bytes `bytes` and the target `target`, steps 1
to 7, with the read of STATUS that the success test needs. The commands that fold the bytes, the register P0 of the
CRCW of a zero register, and the place of the STATUS read are the model's choice (DESIGN CHOICE, log entry 15). The
copy of the window bytes to the host's storage and the comparison of P6 with the target are the host's. -/
def forcerSequence (base : Nat) (bytes : List Byte) (target : Word) : List BusEvent :=
  hostSrst base
    ++ hostFold base bytes ++ hostCmd base (.crcw 0)
    ++ hostCmd base (.crcrd 1)
    ++ hostPoke base 2 (zext33 target) ++ hostCmd base (.rev32 2 2) ++ hostCmd base (.ldi 3 32#8)
    ++ hostCmd base (.delta 4 1 2 3) ++ hostCmd base (.apply 4)
    ++ hostWinrd base
    ++ hostCmd base .crcinit ++ hostFold base bytes ++ hostCmd base (.winrd 5) ++ hostCmd base (.crcw 5)
    ++ hostCmd base (.crcraw 6) ++ hostStatus base

end Sys2Proof.Machine
end

