-- ==== Sys2Proof/Tests/Slice0.lean ====
section
/-! SUPPORT. The model's own tests. Expected values are the spec's: the vectors of 95_test_vectors.md (named V-20, V-30,
V-40 to V-43 there) unless a comment says otherwise. The witnesses at the end meet the hypotheses of the statements. -/

namespace Sys2Proof.Tests

open Sys2Proof.Machine

/-- The next state of an outcome, if it has one. -/
def nextOf : Host.Outcome State Fault Refusal → Option State
  | .next t => some t
  | .fault _ => none
  | .refused _ => none

/-- The reset state with P0 to P3 set. -/
def regs (p0 p1 p2 p3 : Poly) : State := { State.reset with p := #v[p0, p1, p2, p3, 0, 0, 0, 0] }

/-- A block whose window is at address 0x700, with one event pending. -/
def board (e : BusEvent) : State := { State.reset with basePage := 7, pending := [e] }

/-! Well-formedness: the ill-formed term and its word are refused, its neighbour is not (30_encoding.md R97). -/

theorem test_wellFormed_divr : (Instr.divr 5 5 1 2).wellFormed = false ∧ (Instr.divr 5 4 1 2).wellFormed = true := by
  decide

theorem test_decode_divr_same_destination : decode 0x11A55000#32 = .error .sameDestination := by decide

/-! Decoding: each command's word written out from its fields OP, rd, rs1, rs2, rs3 or rd2, MBZ, imm8
(30_encoding.md R91, R95). -/

theorem test_decode_nop : decode 0b00000000_000_000_000_000_0000_00000000#32 = .ok .nop := by decide

theorem test_decode_ldi : decode 0b00000001_011_000_000_000_0000_00100000#32 = .ok (.ldi 3 0x20#8) := by decide

theorem test_decode_ldg : decode 0b00000010_001_000_000_000_0000_00000000#32 = .ok (.ldg 1) := by decide

theorem test_decode_padd : decode 0b00000011_000_001_010_000_0000_00000000#32 = .ok (.padd 0 1 2) := by decide

theorem test_decode_deg : decode 0b00010000_010_001_000_000_0000_00000000#32 = .ok (.deg 2 1) := by decide

theorem test_decode_divr : decode 0b00010001_011_001_010_100_0000_00000000#32 = .ok (.divr 3 4 1 2) := by decide

theorem test_decode_mulm : decode 0b00010010_000_001_010_000_0000_00000000#32 = .ok (.mulm 0 1 2) := by decide

theorem test_decode_powm : decode 0b00010011_000_010_000_000_0000_00000000#32 = .ok (.powm 0 2 0) := by decide

theorem test_decode_recip : decode 0b00010100_101_010_000_000_0000_00000000#32 = .ok (.recip 5 2) := by decide

theorem test_decode_crcinit : decode 0b00100000_000_000_000_000_0000_00000000#32 = .ok .crcinit := by decide

theorem test_decode_crcbi : decode 0b00100001_000_000_000_000_0000_01101000#32 = .ok (.crcbi 0x68#8) := by decide

theorem test_decode_crcw : decode 0b00100010_000_101_000_000_0000_00000000#32 = .ok (.crcw 5) := by decide

theorem test_decode_crcset : decode 0b00100011_000_010_000_000_0000_00000000#32 = .ok (.crcset 2) := by decide

theorem test_decode_crcrd : decode 0b00100100_001_000_000_000_0000_00000000#32 = .ok (.crcrd 1) := by decide

theorem test_decode_crcraw : decode 0b00100101_110_000_000_000_0000_00000000#32 = .ok (.crcraw 6) := by decide

theorem test_decode_rev32 : decode 0b00100110_010_001_000_000_0000_00000000#32 = .ok (.rev32 2 1) := by decide

theorem test_decode_delta : decode 0b00110000_100_001_010_011_0000_00000000#32 = .ok (.delta 4 1 2 3) := by decide

theorem test_decode_apply : decode 0b00110001_000_100_000_000_0000_00000000#32 = .ok (.apply 4) := by decide

theorem test_decode_winld : decode 0b00110010_000_001_000_000_0000_00000000#32 = .ok (.winld 1) := by decide

theorem test_decode_winrd : decode 0b00110011_101_000_000_000_0000_00000000#32 = .ok (.winrd 5) := by decide

/-- Words that no row admits (V-30): an unassigned OP, a set must-be-zero bit, a set unused field. -/
theorem test_decode_illegal : decode 0x04000000#32 = .error .unassignedOpcode ∧
    decode 0xFFFFFFFF#32 = .error .unassignedOpcode ∧ decode 0x00000001#32 = .error .mustBeZeroSet ∧
    decode 0x01000100#32 = .error .mustBeZeroSet ∧ decode 0x12051000#32 = .error .mustBeZeroSet ∧
    decode 0x33A40000#32 = .error .mustBeZeroSet := by
  decide

/-- The encoding example of 30_encoding.md R101. -/
theorem test_encode_divr : encode (.divr 3 4 1 2) = 0x11654000#32 := by decide

/-! The assembly notation (30_encoding.md R101). -/

theorem test_assemble_divr : assemble "DIVR p3, p4, p1, p2".toList = some (.divr 3 4 1 2) := by decide +kernel

theorem test_assemble_ldi : assemble "ldi P3,0x20 ; tail bits".toList = some (.ldi 3 0x20#8) ∧
    assemble "ldi p3, 256".toList = none := by
  decide +kernel

/-! The hardware constants: REFPOLY is the reversed low half of G (10_state.md R42). -/

theorem test_refPoly : rev32 (genPoly.setWidth 32) = refPoly := by decide +kernel

/-! One command each (V-40 to V-43). -/

theorem test_nop : nextOf (exec .nop (regs 0 0x104C11DB7 0 0)) =
    some (regs 0 0x104C11DB7 0 0) := by
  decide

theorem test_ldi_clears_high_bits : nextOf (exec (.ldi 3 0x20#8) (regs 0 0 0 0x1FFFFFFFF)) =
    some (regs 0 0 0 0x20) := by
  decide

theorem test_ldg : nextOf (exec (.ldg 1) State.reset) =
    some (regs 0 0x104C11DB7 0 0) := by
  decide

theorem test_padd : (nextOf (exec (.padd 0 1 2) (regs 0 0x104C11DB7 0x4C11DB7 0))).map (fun t => t.reg 0) =
    some 0x100000000#33 := by
  decide +kernel

theorem test_padd_same : (nextOf (exec (.padd 1 1 1) (regs 0 0x123456789 0 0))).map (fun t => t.reg 1) =
    some 0#33 := by
  decide +kernel

theorem test_deg_generator : (nextOf (exec (.deg 2 1) (regs 0 0x104C11DB7 0 0))).map (fun t => t.reg 2) =
    some 32#33 := by
  decide +kernel

theorem test_deg_zero : (nextOf (exec (.deg 2 1) (regs 0 0 5 0))).map (fun t => (t.reg 2, t.fault)) =
    some (0x1FFFFFFFF#33, false) := by
  decide +kernel

theorem test_divr_overlap : (nextOf (exec (.divr 1 2 1 2) (regs 0 0x1234 0x11 0))).map (fun t => (t.reg 1, t.reg 2)) =
    some (0x130#33, 0x4#33) := by
  decide +kernel

theorem test_divr_zero_by_zero :
    (nextOf (exec (.divr 0 1 2 3) (regs 9 9 0 0))).map (fun t => (t.reg 0, t.reg 1, t.statusWord)) =
    some (9#33, 9#33, 0x103#32) := by
  decide +kernel

theorem test_mulm : (nextOf (exec (.mulm 0 1 2) (regs 0 0x12345678 0x9ABCDEF0 0))).map (fun t => t.reg 0) =
    some 0x0143ADBAE#33 := by
  decide +kernel

theorem test_mulm_range :
    (nextOf (exec (.mulm 0 1 2) (regs 7 1 0x100000000 0))).map (fun t => (t.reg 0, t.statusWord)) =
    some (7#33, 0x102#32) := by
  decide +kernel

theorem test_powm : (nextOf (exec (.powm 0 1 2) (regs 0 0x12345678 0x1FFFFFFFF 0))).map (fun t => t.reg 0) =
    some 0x012345678#33 := by
  decide +kernel

theorem test_powm_zero_zero : (nextOf (exec (.powm 0 1 2) (regs 0 0 0 0))).map (fun t => t.reg 0) =
    some 1#33 := by
  decide +kernel

theorem test_recip : (nextOf (exec (.recip 0 1) (regs 0 0x12345678 0 0))).map (fun t => t.reg 0) =
    some 0x0B0747B46#33 := by
  decide +kernel

theorem test_recip_zero : (nextOf (exec (.recip 2 0) (regs 0 5 6 0))).map (fun t => (t.reg 2, t.statusWord)) =
    some (6#33, 0x104#32) := by
  decide +kernel

theorem test_crcinit : nextOf (exec .crcinit { State.reset with acc := 0xCBF43926#32 }) =
    some State.reset := by
  decide +kernel

theorem test_crcbi : (nextOf (exec (.crcbi 0x6F#8) { State.reset with acc := 0x1C8600E3#32 })).map (fun t => t.acc) =
    some 0x3610A686#32 := by
  decide +kernel

theorem test_crcw_hell : (nextOf (exec (.crcw 1) (regs 0 0x6C6C6568 0 0))).map (fun t => t.acc) =
    some 0x1C8600E3#32 := by
  decide +kernel

theorem test_crcset_range : (nextOf (exec (.crcset 2) (regs 0 0 0x1E50BF11B 0))).map (fun t => (t.acc, t.statusWord)) =
    some (0#32, 0x102#32) := by
  decide +kernel

theorem test_crcset : (nextOf (exec (.crcset 2) (regs 0 0 0xE50BF11B 0))).map (fun t => t.acc) =
    some 0xE50BF11B#32 := by
  decide +kernel

theorem test_crcrd :
    (nextOf (exec (.crcrd 1) { State.reset with acc := 0xB1FB90E1#32 })).map (fun t => (t.acc, t.reg 1)) =
    some (0xB1FB90E1#32, 0x08709DF8D#33) := by
  decide +kernel

theorem test_crcraw :
    (nextOf (exec (.crcraw 6) { State.reset with acc := 0xCBF43926#32 })).map (fun t => (t.acc, t.reg 6)) =
    some (0xCBF43926#32, 0x0CBF43926#33) := by
  decide +kernel

theorem test_rev32 : (nextOf (exec (.rev32 2 1) (regs 0 0x12345678 0 0))).map (fun t => t.reg 2) =
    some 0x01E6A2C48#33 := by
  decide +kernel

theorem test_delta : (nextOf (exec (.delta 1 1 2 3) (regs 0 0x8709DF8D 0 32))).map (fun t => t.reg 1) =
    some 0x0D83593DA#33 := by
  decide +kernel

theorem test_delta_k40 : (nextOf (exec (.delta 0 1 2 3) (regs 0 1 0 40))).map (fun t => t.reg 0) =
    some 0x0FD7384D7#33 := by
  decide +kernel

theorem test_apply : (nextOf (exec (.apply 1) (regs 0 0xD83593DA 0 0))).map (fun t => t.win) =
    some #v[0x1B#8, 0xAC#8, 0xC9#8, 0x5B#8] := by
  decide +kernel

theorem test_winld : (nextOf (exec (.winld 1) (regs 0 0x44332211 0 0))).map (fun t => t.win) =
    some #v[0x11#8, 0x22#8, 0x33#8, 0x44#8] := by
  decide +kernel

theorem test_winrd :
    (nextOf (exec (.winrd 5) { State.reset with win := #v[0x1B#8, 0xAC#8, 0xC9#8, 0x5B#8] })).map (fun t => t.reg 5) =
    some 0x05BC9AC1B#33 := by
  decide +kernel

/-! The bus: one event each (V-20), with BASE = 0x700. -/

theorem test_read_status :
    (nextOf (step { board (.read 0x704 .word) with err := 3#4, fault := true, drop := true })).map
    (fun t => (t.replies, t.pending, t.fault)) = some ([0x303#32], [], true) := by
  decide +kernel

theorem test_write_low_keeps_bit32 :
    (nextOf (step { board (.write 0x728 .word 7#32) with p := (regs 0 0x104C11DB7 0 0).p })).map (fun t => t.reg 1) =
      some 0x100000007#33 := by
  decide +kernel

theorem test_write_high_takes_bit0 :
    (nextOf (step (board (.write 0x75C .word 0xFFFFFFFF#32)))).map (fun t => t.reg 7) = some 0x100000000#33 := by
  decide +kernel

theorem test_write_win : (nextOf (step (board (.write 0x70C .word 0x5BC9AC1B#32)))).map (fun t => t.win) =
    some #v[0x1B#8, 0xAC#8, 0xC9#8, 0x5B#8] := by
  decide +kernel

/-- An illegal word in the fault state is dropped, not decoded (95_test_vectors.md program 6, step 14). -/
theorem test_illegal_word_dropped :
    (nextOf (step { board (.write 0x708 .word 1#32) with err := 3#4, fault := true })).map (fun t => t.statusWord) =
      some 0x303#32 := by
  decide +kernel

theorem test_illegal_word : (nextOf (step (board (.write 0x708 .word 0x04000000#32)))).map (fun t => t.statusWord) =
    some 0x101#32 := by
  decide +kernel

theorem test_soft_reset :
    nextOf (step { board (.write 0x700 .word 1#32) with acc := 5#32, err := 1#4, fault := true, drop := true }) =
      some { State.reset with basePage := 7 } := by
  decide +kernel

/-- The stops of 20_memory.md R71. -/
theorem test_stops : step (board (.read 0x800 .word)) = .fault .outsideWindow ∧
    step (board (.read 0x6FC .word)) = .fault .outsideWindow ∧
    step (board (.read 0x704 .byte)) = .refused .narrowAccess ∧
    step (board (.write 0x70A .word 0#32)) = .refused .misalignedAccess :=
  ⟨rfl, rfl, rfl, rfl⟩

/-- A command word put before the reset state is executed by the next step. -/
theorem test_withFetchWord : (nextOf (step (State.reset.withFetchWord 32 0x21000061))).map (fun t => t.acc) =
    some 0xE8B7BE43#32 := by
  decide +kernel

/-! Witnesses. `test_witness_<Name>` shows a state and operands that meet all hypotheses of `Obligations.<Name>`
together, one member for each of its clauses and at the ends of a range where a hypothesis names one. -/

/-- A block in the fault state, with one event pending. -/
def stopped (e : BusEvent) : State := { board e with err := 1#4, fault := true }

/-- P1 and P2 at the ends of the 32-bit operands' range, P3 an exponent with bit 32 set, P0 zero. -/
def operands : State := regs 0 1 0xFFFFFFFF 0x1FFFFFFFF

theorem test_witness_ResetLeavesEveryFieldZero : (1#32).getLsbD 0 = true ∧ (0xFFFFFFFF#32).getLsbD 0 = true := by decide

theorem test_witness_CtrlAccess : (1#32).getLsbD 0 = true ∧ (0xFFFFFFFE#32).getLsbD 0 = false := by decide

theorem test_witness_StatusAccess :
    ∃ t, runEvent (.read ((board .hardReset).base + 0x04) .word) (board .hardReset) = .next t := ⟨_, rfl⟩

theorem test_witness_ReservedAccess : ∀ off ∈ [0x14, 0x1C, 0x60, 0xFC], off % 4 = 0 ∧
    ((0x14 ≤ off ∧ off ≤ 0x1C) ∨ (0x60 ≤ off ∧ off ≤ 0xFC)) := by decide

/-- Just below and just above the window, a halfword access, a misaligned one; their admitted neighbours. -/
theorem test_witness_OtherAccessesHaveNoStep :
    (∀ e ∈ [BusEvent.read 0x6FC .word, .read 0x800 .word, .write 0x704 .half 0#32, .read 0x701 .word],
      ¬ (board .hardReset).admitsEvent e) ∧
    (∀ e ∈ [BusEvent.read 0x700 .word, .write 0x7FC .word 0#32], (board .hardReset).admitsEvent e) := by
  simp [board, State.admitsEvent, State.admitsAddress, State.base, Config.windowSize]

theorem test_witness_ObedientHostNeverStops : (board (.write 0x708 .word 0#32)).hostObeysRules := by
  simp [board, State.hostObeysRules, State.admitsEvent, State.admitsAddress, State.base, Config.windowSize]

theorem test_witness_OnlyCommandsAreNotIdempotent :
    (∃ t, runEvent (.read 0x704 .word) (board .hardReset) = .next t) ∧
    ∀ off ∈ [0x00, 0x20, 0xFC], off < 0x100 ∧ off % 4 = 0 ∧ off ≠ 0x08 ∧
      ∃ t u, hostWrite off 5#32 (board .hardReset) = .next t ∧ hostWrite off 5#32 t = .next u := by
  refine ⟨⟨_, rfl⟩, ?_⟩
  simp only [List.forall_mem_cons, List.not_mem_nil, false_implies, implies_true, and_true]
  exact ⟨⟨by decide, by decide, by decide, _, _, rfl, rfl⟩, ⟨by decide, by decide, by decide, _, _, rfl, rfl⟩,
    by decide, by decide, by decide, _, _, rfl, rfl⟩

theorem test_witness_StepRunsEarliestEvent : State.reset.pending = [] ∧
    (board .hardReset).pending = .hardReset :: [] ∧ ∀ off ∈ [0x00, 0xFC], off < 0x100 ∧ off % 4 = 0 := by decide

theorem test_witness_DecodeOfEncode : (Instr.divr 0 7 0 7).wellFormed = true ∧
    (Instr.crcbi 0xFF#8).wellFormed = true := by decide

theorem test_witness_EncodeOfDecode : decode 0x30FFF000#32 = .ok (.delta 7 7 7 7) := by decide

theorem test_witness_DivrWithOneDestinationIsIllegal : (0x11A55000#32).extractLsb' 24 8 = 0x11#8 ∧
    (0x11A55000#32).extractLsb' 21 3 = (0x11A55000#32).extractLsb' 12 3 := by decide

theorem test_witness_NopHasExactlyOneWord : operands.fault = false := rfl

theorem test_witness_StepRunsDecodedCommand :
    (board (.write 0x708 .word 0x12050000#32)).pending =
      .write ((board (.write 0x708 .word 0x12050000#32)).base + 0x08) .word 0x12050000#32 :: [] ∧
    decode 0x12050000#32 = .ok (.mulm 0 1 2) := by decide

theorem test_witness_IllegalWordRaisesCodeOne : operands.fault = false ∧ ∀ i, decode 0x04000000#32 ≠ .ok i :=
  ⟨rfl, fun i h => by
    have hd : decode 0x04000000#32 = .error .unassignedOpcode := by decide
    rw [hd] at h
    cases h⟩

theorem test_witness_CommandInFaultStateIsDropped : (stopped .hardReset).fault = true := rfl

/-- A command dropped, an event that is no reset while DROP is set, the two resets. -/
theorem test_witness_DropIsSticky :
    (∃ t, runEvent (.write ((stopped .hardReset).base + 0x08) .word 0#32) (stopped .hardReset) = .next t ∧
      (stopped .hardReset).drop = false ∧ t.drop = true) ∧
    (∃ t, runEvent (.read 0x704 .word) { stopped .hardReset with drop := true } = .next t ∧
      ¬ (stopped .hardReset).isResetEvent (.read 0x704 .word)) ∧
    (∃ t, runEvent .hardReset (stopped .hardReset) = .next t ∧ (stopped .hardReset).isResetEvent .hardReset) ∧
    ∃ t, runEvent (.write 0x700 .word 1#32) (stopped .hardReset) = .next t ∧
      (stopped .hardReset).isResetEvent (.write 0x700 .word 1#32) :=
  ⟨⟨_, rfl, rfl, rfl⟩, ⟨_, rfl, by decide⟩, ⟨_, rfl, trivial⟩, _, rfl, by decide⟩

/-- A command in the fault state, a reset, an error raised. -/
theorem test_witness_FaultIsSticky :
    (∃ t, runEvent (.write 0x708 .word 0#32) (stopped .hardReset) = .next t ∧
      ¬ (stopped .hardReset).isResetEvent (.write 0x708 .word 0#32)) ∧
    (∃ t, runEvent .hardReset (stopped .hardReset) = .next t ∧ (stopped .hardReset).isResetEvent .hardReset) ∧
    ∃ t, runEvent (.write 0x708 .word 1#32) (board .hardReset) = .next t ∧ (board .hardReset).fault = false ∧
      t.fault = true :=
  ⟨⟨_, rfl, by decide⟩, ⟨_, rfl, trivial⟩, _, rfl, rfl, rfl⟩

theorem test_witness_FirstErrorIsKept :
    (∃ t, runEvent (.write ((stopped .hardReset).base + 0x08) .word 0x04000000#32) (stopped .hardReset) = .next t) ∧
    (stopped .hardReset).fault = true ∧
    ¬ (stopped .hardReset).isResetEvent (.write ((stopped .hardReset).base + 0x08) .word 0x04000000#32) :=
  ⟨⟨_, rfl⟩, rfl, by decide⟩

/-- Both sides of the equivalence: the second operand of MULM in and out of range. -/
theorem test_witness_OperandRangeExactly : operands.fault = false ∧ operands.outOfRange (.mulm 0 1 3) ∧
    ¬ operands.outOfRange (.mulm 0 1 2) := by decide

/-- One member for each clause, in the statement's order. -/
theorem test_witness_FirstConditionDecides : (stopped .hardReset).fault = true ∧ operands.fault = false ∧
    decode 0x04000000#32 = .error .unassignedOpcode ∧
    decode 0x12058000#32 = .ok (.mulm 0 1 3) ∧
    operands.outOfRange (.mulm 0 1 3) ∧
    decode 0x11081000#32 = .ok (.divr 0 1 2 0) ∧ operands.reg 0 = 0#33 ∧
    decode 0x14400000#32 = .ok (.recip 2 0) ∧
    decode 0x11089000#32 = .ok (.divr 0 1 2 1) ∧ operands.reg 1 ≠ 0#33 ∧ ¬ operands.outOfRange (.divr 0 1 2 1) := by
  decide

theorem test_witness_StatusStaysCoherent : (board (.write 0x708 .word 1#32)).statusCoherent ∧
    ({ stopped .hardReset with err := 4#4, drop := true } : State).statusCoherent ∧
    (∃ t, step (board (.write 0x708 .word 1#32)) = .next t) ∧
    ∃ t, step { stopped .hardReset with err := 4#4, drop := true } = .next t :=
  ⟨by decide, by decide, ⟨_, rfl⟩, _, rfl⟩

theorem test_witness_AccChangesOnlyByCrcCommands :
    ∃ t, runEvent (.write 0x708 .word 0x21000061#32) (board .hardReset) = .next t ∧ t.acc ≠ (board .hardReset).acc :=
  ⟨_, rfl, by decide +kernel⟩

theorem test_witness_WinChangesOnlyByWindowCommands :
    ∃ t, runEvent (.write 0x70C .word 5#32) (board .hardReset) = .next t ∧ t.win ≠ (board .hardReset).win :=
  ⟨_, rfl, by decide⟩

theorem test_witness_RegisterChangesOnlyAsDestination :
    (∃ t, runEvent (.write 0x708 .word 0x01E00005#32) (board .hardReset) = .next t ∧
      t.reg 7 ≠ (board .hardReset).reg 7) ∧
    ∃ t, runEvent (.write 0x724 .word 1#32) (board .hardReset) = .next t ∧ t.reg 0 ≠ (board .hardReset).reg 0 :=
  ⟨⟨_, rfl, by decide⟩, _, rfl, by decide⟩

theorem test_witness_DivremIsPolynomialDivision : (1 : Nat) ≠ 0 ∧ gNat ≠ 0 ∧ gNat < 2 ^ 33 ∧
    0x1FFFFFFFF < 2 ^ 33 := by decide

theorem test_witness_MulmIsProductModG : (0 : Nat) < 2 ^ 32 ∧ 0xFFFFFFFF < 2 ^ 32 := by decide

theorem test_witness_MulmRingLaws : (0 : Nat) < 2 ^ 32 ∧ 0x80000000 < 2 ^ 32 ∧ 0xFFFFFFFF < 2 ^ 32 := by decide

theorem test_witness_PowmIsRepeatedProduct : (0 : Nat) < 2 ^ 32 ∧ 0xFFFFFFFF < 2 ^ 32 := by decide

/-- Both cases have a member: 1 has no divisor but 1, and G divides 0 and itself. -/
theorem test_witness_RecipIsTheReciprocal :
    ((1 : Nat) < 2 ^ 32 ∧ ∀ d q g : Nat, 1 = clmul q d → gNat = clmul g d → d = 1) ∧
    ((0 : Nat) < 2 ^ 32 ∧ ¬ ∀ d q g : Nat, 0 = clmul q d → gNat = clmul g d → d = 1) := by
  refine ⟨⟨by decide, ?_⟩, by decide, ?_⟩
  · intro d q g h _
    have hd : d ≠ 0 := by rintro rfl; simp at h
    have hq : q ≠ 0 := by rintro rfl; simp at h
    have ht := clmul_testBit_top hq hd
    rw [← h] at ht
    have h0 : deg q + deg d = 0 := by
      by_contra hne
      rw [Nat.testBit_lt_two_pow (Nat.lt_of_lt_of_le (by decide : 1 < 2 ^ 1)
        (Nat.pow_le_pow_right (by decide) (by omega)))] at ht
      cases ht
    have hlt : d < 2 ^ (d.log2 + 1) := Nat.lt_log2_self
    rw [show d.log2 = 0 by rw [← deg]; omega] at hlt
    omega
  · intro h
    have hg : gNat = 1 := h gNat 0 1 (by simp) (by decide +kernel)
    exact absurd hg (by decide)

theorem test_witness_OnlyZeroHasNoReciprocal : (0 : Nat) < 2 ^ 32 ∧ (0xFFFFFFFF : Nat) < 2 ^ 32 ∧
    (0xFFFFFFFF : Nat) ≠ 0 := by decide

theorem test_witness_Rev32ReversesBits : (0 : Nat) < 32 ∧ (31 : Nat) < 32 := by decide

theorem test_witness_PatchBytesAreReversedBigEndian : (0 : Nat) < 8 ∧ (7 : Nat) < 8 := by decide

theorem test_witness_NopChangesNothing : operands.fault = false := rfl

theorem test_witness_LdiWritesImmediate : operands.fault = false := rfl

theorem test_witness_LdgWritesGenerator : operands.fault = false := rfl

theorem test_witness_PaddWritesSum : operands.fault = false := rfl

theorem test_witness_DegWritesHighestSetBit : operands.fault = false ∧ operands.reg 0 = 0#33 ∧
    operands.reg 3 ≠ 0#33 := by decide

theorem test_witness_DivrWritesQuotientAndRemainder : operands.fault = false ∧ (0 : Reg) ≠ 1 ∧
    operands.reg 1 ≠ 0#33 ∧ operands.reg 3 ≠ 0#33 := by decide

theorem test_witness_MulmWritesProduct : operands.fault = false ∧ (operands.reg 0).getLsbD 32 = false ∧
    (operands.reg 2).getLsbD 32 = false := by decide

theorem test_witness_PowmWritesPower : operands.fault = false ∧ (operands.reg 2).getLsbD 32 = false := by decide

theorem test_witness_RecipWritesReciprocal : operands.fault = false ∧ (operands.reg 2).getLsbD 32 = false ∧
    operands.reg 2 ≠ 0#33 ∧ (operands.reg 1).getLsbD 32 = false ∧ operands.reg 1 ≠ 0#33 := by decide

theorem test_witness_ArithmeticErrorsAreRaised : operands.fault = false ∧ (1 : Reg) ≠ 2 ∧
    operands.reg 0 = 0#33 := by decide

theorem test_witness_CrcCommandsWriteAcc : operands.fault = false ∧ (operands.reg 0).getLsbD 32 = false ∧
    (operands.reg 2).getLsbD 32 = false := by decide

theorem test_witness_CrcReadsWriteRegister : operands.fault = false := rfl

theorem test_witness_Rev32WritesReversedBits : operands.fault = false ∧ (operands.reg 2).getLsbD 32 = false := by decide

theorem test_witness_DeltaWritesDelta : operands.fault = false ∧ (operands.reg 0).getLsbD 32 = false ∧
    (operands.reg 2).getLsbD 32 = false := by decide

theorem test_witness_ApplyPatchesWindow : operands.fault = false ∧ (operands.reg 2).getLsbD 32 = false := by decide

theorem test_witness_WinldLoadsWindow : operands.fault = false ∧ (operands.reg 2).getLsbD 32 = false := by decide

theorem test_witness_WinrdReadsWindow : operands.fault = false := rfl

end Sys2Proof.Tests
end

/-! ## What one bus event does to STATUS: FAULT and DROP are sticky (10_state.md R39, R40) -/

namespace Sys2Proof.Machine

/-- An admitted write resets the block only at CTRL, with bit 0 set (70_reset_and_hazards.md R260). -/
theorem isResetEvent_write_iff {s : State} {off : Nat} {v : Word} :
    s.isResetEvent (.write (s.base + off) .word v) ↔ off = 0 ∧ v.getLsbD 0 = true := by
  simp [State.isResetEvent]

/-- CMD is not CTRL (20_memory.md R62). -/
theorem not_isResetEvent_commandWrite (s : State) (w : Word) : ¬ s.isResetEvent (commandWrite s w) := by
  rw [commandWrite, isResetEvent_write_iff]
  omega

/-- An admitted write is the command word's only at CMD. -/
theorem write_eq_commandWrite_iff {s : State} {off : Nat} {v w : Word} :
    .write (s.base + off) .word v = commandWrite s w ↔ off = 0x08 ∧ v = w := by
  simp [commandWrite]

/-- A write to CMD executes the word written (20_memory.md R65). -/
theorem hostWrite_cmd (v : Word) (s : State) : hostWrite 0x08 v s = execWord v s := rfl

/-- A write elsewhere than to CMD resets the block from CTRL, or keeps STATUS (20_memory.md R63 to R69). -/
theorem hostWrite_status_of_ne_cmd {s t : State} {off : Nat} {v : Word} (h4 : off % 4 = 0) (hne : off ≠ 0x08)
    (h : hostWrite off v s = .next t) :
    (off = 0 ∧ v.getLsbD 0 = true ∧ t = s.resetBlock) ∨
    (¬ (off = 0 ∧ v.getLsbD 0 = true) ∧ s.sameStatus t) := by
  rcases hostWrite_cases h4 v s with
    ⟨h8, -⟩ | ⟨h0, hv, hw⟩ | ⟨hoff, hw⟩ | ⟨n, hoff, hw⟩ | ⟨n, hoff, hw⟩ | ⟨h0, hw⟩
  · exact absurd h8 hne
  all_goals cases hw.symm.trans h
  · exact .inl ⟨h0, hv, rfl⟩
  · exact .inr ⟨by omega, rfl, rfl, rfl⟩
  · exact .inr ⟨by omega, rfl, rfl, rfl⟩
  · exact .inr ⟨by omega, rfl, rfl, rfl⟩
  · exact .inr ⟨fun ⟨hoff, hv⟩ => Bool.false_ne_true ((h0 hoff).symm.trans hv), rfl, rfl, rfl⟩

/-- Everything a bus event can do to STATUS: reset the block, drop a command word in the fault state, raise one error
for a command word outside it, or leave STATUS as it was, which no reset and no command word in the fault state
does. -/
theorem runEvent_status_cases {s t : State} {e : BusEvent} (h : runEvent e s = .next t) :
    (s.isResetEvent e ∧ t = s.resetBlock) ∨
    (s.fault = true ∧ (∃ w, e = commandWrite s w) ∧ t = s.dropCommand) ∨
    (s.fault = false ∧ (∃ w, e = commandWrite s w) ∧ ∃ c, t = s.raise c) ∨
    (¬ s.isResetEvent e ∧ (∀ w, e = commandWrite s w → s.fault = false) ∧ s.sameStatus t) := by
  rcases runEvent_cases h with ⟨rfl, rfl⟩ | ⟨off, -, -, rfl, rfl⟩ | ⟨off, v, -, h4, rfl, hw⟩
  case inl => exact .inl ⟨trivial, rfl⟩
  case inr.inl => exact .inr (.inr (.inr ⟨id, fun _ hc => absurd hc (by simp [commandWrite]), rfl, rfl, rfl⟩))
  case inr.inr =>
    by_cases h8 : off = 0x08
    · subst h8
      rw [hostWrite_cmd] at hw
      rcases execWord_status v s with ⟨hf, hx⟩ | ⟨hf, c, hx⟩ | ⟨hf, u, hx, hkeep, -⟩
      all_goals cases hx.symm.trans hw
      · exact .inr (.inl ⟨hf, ⟨v, rfl⟩, rfl⟩)
      · exact .inr (.inr (.inl ⟨hf, ⟨v, rfl⟩, c, rfl⟩))
      · exact .inr (.inr (.inr ⟨not_isResetEvent_commandWrite s v, fun _ _ => hf, hkeep⟩))
    · rcases hostWrite_status_of_ne_cmd h4 h8 hw with ⟨h0, hv, rfl⟩ | ⟨hno, hkeep⟩
      · exact .inl ⟨isResetEvent_write_iff.mpr ⟨h0, hv⟩, rfl⟩
      · exact .inr (.inr (.inr ⟨fun hr => hno (isResetEvent_write_iff.mp hr),
          fun _ hc => absurd (write_eq_commandWrite_iff.mp hc).1 h8, hkeep⟩))

/-- The error codes start at 1 (60_exceptions.md R232). -/
theorem ErrorCause.one_le_code (c : ErrorCause) : 1#4 ≤ c.code := by cases c <;> decide

/-- Taking an error writes ERR and FAULT and nothing else (60_exceptions.md R231, R235). -/
theorem raisesOnly_raise (s : State) (c : ErrorCause) : s.raisesOnly (s.raise c) c.code :=
  ⟨rfl, rfl, rfl, rfl, rfl, rfl, rfl, rfl, rfl⟩

/-- Settles O22, by the four things a bus event can do to STATUS: only a command word in the fault state sets DROP. -/
theorem dropIsSticky : Obligations.DropIsSticky := by
  intro s t e h
  rcases runEvent_status_cases h with
    ⟨hr, rfl⟩ | ⟨hf, ⟨w, rfl⟩, rfl⟩ | ⟨hf, ⟨w, rfl⟩, c, rfl⟩ | ⟨hr, hcmd, -, -, hdrop⟩
  case inl =>
    refine ⟨?_, fun hn => absurd hr hn, fun _ => rfl, fun _ hd => nomatch hd⟩
    rintro w rfl -
    exact absurd hr (not_isResetEvent_commandWrite s w)
  case inr.inl =>
    exact ⟨fun _ _ _ => rfl, fun _ _ => rfl, fun hr => absurd hr (not_isResetEvent_commandWrite s w),
      fun _ _ => ⟨hf, w, rfl⟩⟩
  case inr.inr.inl =>
    exact ⟨fun _ _ hf' => by simp [hf] at hf', fun _ hd => hd,
      fun hr => absurd hr (not_isResetEvent_commandWrite s w), fun hd hd' => by simp [hd] at hd'⟩
  case inr.inr.inr =>
    exact ⟨fun w hc hf => by simp [hcmd w hc] at hf, fun _ hd => hdrop.trans hd, fun h' => absurd h' hr,
      fun hd hd' => by simp [hdrop, hd] at hd'⟩

/-- Settles O23, by the four things a bus event can do to STATUS: only a raised error sets FAULT. -/
theorem faultIsSticky : Obligations.FaultIsSticky := by
  intro s t e h
  rcases runEvent_status_cases h with
    ⟨hr, rfl⟩ | ⟨hf, ⟨w, rfl⟩, rfl⟩ | ⟨hf, ⟨w, rfl⟩, c, rfl⟩ | ⟨hr, -, -, hfault, -⟩
  case inl => exact ⟨fun hn => absurd hr hn, fun _ => rfl, fun _ hf => nomatch hf⟩
  case inr.inl =>
    exact ⟨fun _ _ => hf, fun hr => absurd hr (not_isResetEvent_commandWrite s w),
      fun hf' => by simp [hf] at hf'⟩
  case inr.inr.inl =>
    exact ⟨fun _ _ => rfl, fun hr => absurd hr (not_isResetEvent_commandWrite s w),
      fun _ _ => ⟨⟨w, rfl⟩, c.code, c.one_le_code, c.code_le_four, raisesOnly_raise s c⟩⟩
  case inr.inr.inr =>
    exact ⟨fun _ hf => hfault.trans hf, fun h' => absurd h' hr, fun hf hf' => by simp [hfault, hf] at hf'⟩

end Sys2Proof.Machine

/-! ## The registers of the host window: what a read returns and a write changes (20_memory.md R62 to R69) -/

namespace Sys2Proof.Machine

/-- Laying one bit vector above another adds their values, the upper one shifted. -/
theorem toNat_append_add {m n : Nat} (x : BitVec m) (y : BitVec n) :
    (x ++ y).toNat = 2 ^ n * x.toNat + y.toNat := by
  rw [BitVec.toNat_append, ← Nat.shiftLeft_add_eq_or_of_lt y.isLt, Nat.shiftLeft_eq, Nat.mul_comm]

/-- The layout of STATUS (20_memory.md R64). -/
theorem statusWord_toNat (s : State) :
    s.statusWord.toNat = 512 * s.drop.toNat + 256 * s.fault.toNat + s.err.toNat := by
  simp only [State.statusWord, toNat_append_add, BitVec.toNat_ofBool, BitVec.toNat_ofNat]
  omega

/-- Byte `j` of the window word is WIN[j] (20_memory.md R66, R70). -/
theorem byteOf_winWord (s : State) (j : Fin 4) : byteOf s.winWord j.val = s.win[j] := by
  apply BitVec.eq_of_toNat_eq
  simp only [byteOf, State.winWord, BitVec.extractLsb'_toNat, toNat_append_add, Nat.shiftRight_eq_div_pow]
  match j with
  | 0 | 1 | 2 | 3 => simp; omega

/-- Byte `j` of the window that a word gives is byte `j` of the word (20_memory.md R66, R70). -/
theorem windowOf_getElem (v : Word) (j : Fin 4) : (windowOf v)[j] = byteOf v j.val := by
  match j with
  | 0 | 1 | 2 | 3 => rfl

/-- Bit 32 of a register as a number (20_memory.md R68). -/
theorem bit32_toNat (x : Poly) : (x.getLsbD 32).toNat = x.toNat / 2 ^ 32 := by
  rw [← BitVec.testBit_toNat, Nat.toNat_testBit, Nat.mod_eq_of_lt (by omega)]

/-- A PnLO write takes the word and keeps bit 32 (20_memory.md R68). -/
theorem withLow_toNat (x : Poly) (v : Word) : (withLow x v).toNat = 2 ^ 32 * (x.toNat / 2 ^ 32) + v.toNat := by
  rw [withLow, toNat_append_add, BitVec.extractLsb'_toNat, Nat.shiftRight_eq_div_pow,
    Nat.mod_eq_of_lt (by omega)]

/-- A PnHI write takes bit 0 of the word and keeps bits 31:0 (20_memory.md R68). -/
theorem withHigh_toNat (x : Poly) (v : Word) :
    (withHigh x v).toNat = 2 ^ 32 * (v.toNat % 2) + x.toNat % 2 ^ 32 := by
  simp only [withHigh, toNat_append_add, BitVec.extractLsb'_toNat, Nat.shiftRight_zero, Nat.pow_one]

/-- A register write is a write of that register alone (10_state.md R32). -/
theorem writesOnlyReg_setReg (s : State) (r : Reg) (v : Poly) : s.writesOnlyReg (s.setReg r v) r v :=
  ⟨s.reg_setReg_same r v, fun _ h => s.reg_setReg_other v h, rfl, rfl, ⟨rfl, rfl, rfl⟩, rfl, rfl, rfl⟩

/-- A window write is a write of the window alone (10_state.md R36). -/
theorem writesOnlyWin_setWin (s : State) (w : Vector Byte 4) : s.writesOnlyWin (s.setWin w) (fun j => w[j]) :=
  ⟨fun _ => rfl, rfl, rfl, ⟨rfl, rfl, rfl⟩, rfl, rfl, rfl⟩

/-- A read that answers changes nothing of the block (20_memory.md R73). -/
theorem runEvent_read_sameBlock {s t : State} {addr : Nat} {size : AccessSize}
    (h : runEvent (.read addr size) s = .next t) : s.sameBlock t := by
  rcases runEvent_cases h with ⟨he, -⟩ | ⟨_, -, -, -, rfl⟩ | ⟨_, _, -, -, he, -⟩
  · nomatch he
  · exact ⟨rfl, rfl, rfl, rfl, rfl, rfl⟩
  · nomatch he

section Access

variable (s : State)

/-- A STATUS read returns the status word (20_memory.md R64). -/
theorem hostRead_status : hostRead 0x04 s = s.statusWord := rfl

/-- A write to STATUS has no effect (20_memory.md R64). -/
theorem hostWrite_status (v : Word) : hostWrite 0x04 v s = .next s := rfl

/-- A WIN read returns the window word (20_memory.md R66). -/
theorem hostRead_win : hostRead 0x0C s = s.winWord := rfl

/-- A WIN write writes the word's four bytes (20_memory.md R66). -/
theorem hostWrite_win (v : Word) : hostWrite 0x0C v s = .next (s.setWin (windowOf v)) := rfl

/-- A PnLO read returns bits 31:0 of Pn (20_memory.md R68). -/
theorem hostRead_polyLo (n : Reg) : hostRead (0x20 + 8 * n.val) s = (s.reg n).setWidth 32 := by
  rw [hostRead, windowReg_polyLo]

/-- A PnLO write writes bits 31:0 of Pn (20_memory.md R68). -/
theorem hostWrite_polyLo (n : Reg) (v : Word) :
    hostWrite (0x20 + 8 * n.val) v s = .next (s.setReg n (withLow (s.reg n) v)) := by
  rw [hostWrite, windowReg_polyLo]

/-- A PnHI read returns bit 32 of Pn (20_memory.md R68). -/
theorem hostRead_polyHi (n : Reg) :
    hostRead (0x24 + 8 * n.val) s = (BitVec.ofBool ((s.reg n).getLsbD 32)).setWidth 32 := by
  rw [hostRead, windowReg_polyHi]

/-- A PnHI write writes bit 32 of Pn (20_memory.md R68). -/
theorem hostWrite_polyHi (n : Reg) (v : Word) :
    hostWrite (0x24 + 8 * n.val) v s = .next (s.setReg n (withHigh (s.reg n) v)) := by
  rw [hostWrite, windowReg_polyHi]

/-- A reserved register reads as 0 (20_memory.md R69). -/
theorem hostRead_reserved {off : Nat} (h : windowReg off = .reserved) : hostRead off s = 0#32 := by
  rw [hostRead, h]

/-- A write to a reserved register has no effect (20_memory.md R69). -/
theorem hostWrite_reserved {off : Nat} (h : windowReg off = .reserved) (v : Word) :
    hostWrite off v s = .next s := by
  rw [hostWrite, h]

/-- PnLO as a number (20_memory.md R68). -/
theorem hostRead_polyLo_toNat (n : Reg) : (hostRead (0x20 + 8 * n.val) s).toNat = (s.reg n).toNat % 2 ^ 32 := by
  rw [hostRead_polyLo, BitVec.toNat_setWidth]

/-- PnHI as a number (20_memory.md R68). -/
theorem hostRead_polyHi_toNat (n : Reg) : (hostRead (0x24 + 8 * n.val) s).toNat = (s.reg n).toNat / 2 ^ 32 := by
  have hlt := Bool.toNat_lt ((s.reg n).getLsbD 32)
  rw [hostRead_polyHi, BitVec.toNat_setWidth, BitVec.toNat_ofBool, Nat.mod_eq_of_lt (by omega), bit32_toNat]

end Access

/-- Settles O3, by the layout of the status word. -/
theorem statusAccess : Obligations.StatusAccess := fun s =>
  ⟨statusWord_toNat s, fun _ h => runEvent_read_sameBlock h, hostWrite_status s⟩

/-- Settles O5: the window word is the window's bytes in order, and a write writes the word's bytes alone. -/
theorem winAccess : Obligations.WinAccess := by
  intro s
  constructor
  · intro j
    rw [hostRead_win]
    exact byteOf_winWord s j
  · intro v
    obtain ⟨hwin, hframe⟩ := writesOnlyWin_setWin s (windowOf v)
    exact ⟨_, hostWrite_win s v, fun j => (hwin j).trans (windowOf_getElem v j), hframe⟩

/-- Settles O7, by the values that the two halves of a register read and that a write of each half leaves. -/
theorem polyRegisterAccess : Obligations.PolyRegisterAccess := fun s n =>
  ⟨hostRead_polyLo_toNat s n, hostRead_polyHi_toNat s n, fun v =>
    ⟨⟨_, _, hostWrite_polyLo s n v, writesOnlyReg_setReg s n _, withLow_toNat (s.reg n) v⟩,
      ⟨_, _, hostWrite_polyHi s n v, writesOnlyReg_setReg s n _, withHigh_toNat (s.reg n) v⟩⟩⟩

/-- Settles O8: no register lies at a reserved offset. -/
theorem reservedAccess : Obligations.ReservedAccess := by
  intro s off h4 hrange
  have hreserved : windowReg off = .reserved := windowReg_reserved (by omega)
  exact ⟨hostRead_reserved s hreserved, hostWrite_reserved s hreserved⟩

end Sys2Proof.Machine

/-! ## What a word that decodes is: the converse of `decode_of_row` (30_encoding.md R94 to R99) -/

namespace Sys2Proof

/-- A word decodes to a command exactly when it passes the checks of its OP's row, the row makes the command of its
fields, and the command is well-formed (30_encoding.md R96). -/
theorem decode_eq_ok_iff {w : Word} {i : Instr} :
    decode w = .ok i ↔ ∃ row, opcodeTable.find? (fun row => row.op == opField w) = some row ∧
      w &&& row.format.mask = row.matchWord ∧
      row.build (rdField w) (rs1Field w) (rs2Field w) (rs3Field w) (imm8Field w) = i ∧ i.wellFormed = true := by
  constructor
  · intro h
    unfold decode at h
    split at h
    case h_1 => cases h
    case h_2 row hrow =>
      split at h
      case isTrue => cases h
      case isFalse hmask =>
        dsimp only at h
        split at h
        case isTrue hwf =>
          cases h
          exact ⟨row, hrow, not_not.mp hmask, rfl, hwf⟩
        case isFalse => cases h
  · rintro ⟨row, hrow, hmask, hbuild, hwf⟩
    exact decode_of_row hrow hmask hbuild hwf

/-- The row of OP 0x11 is DIVR's (30_encoding.md R95). -/
theorem find?_opcodeTable_divr : opcodeTable.find? (fun row => row.op == 0x11#8) =
    some ⟨0x11#8, .dd, fun rd rs1 rs2 rd2 _ => .divr rd rd2 rs1 rs2⟩ := rfl

/-- A word of OP 0x11 that decodes has two different destination fields (30_encoding.md R97). -/
theorem rdField_ne_rs3Field_of_decode {w : Word} {i : Instr} (hop : opField w = 0x11#8) (h : decode w = .ok i) :
    rdField w ≠ rs3Field w := by
  obtain ⟨row, hrow, -, rfl, hwf⟩ := decode_eq_ok_iff.mp h
  rw [hop, find?_opcodeTable_divr] at hrow
  cases hrow
  exact bne_iff_ne.mp hwf

/-- The one row that makes NOP, from whatever fields, is the row of OP 0 in format N (30_encoding.md R95). -/
theorem row_of_build_nop {row : OpcodeRow} (hmem : row ∈ opcodeTable) {rd rs1 rs2 rs3 : Reg} {imm8 : Byte}
    (h : row.build rd rs1 rs2 rs3 imm8 = .nop) : row.op = 0x00#8 ∧ row.format = .n := by
  have hothers : ∀ other ∈ opcodeTable.tail, other.build rd rs1 rs2 rs3 imm8 ≠ .nop := by simp [opcodeTable]
  rcases List.mem_cons.mp hmem with rfl | htail
  · exact ⟨rfl, rfl⟩
  · exact absurd h (hothers row htail)

/-- The all-zero word decodes to NOP (30_encoding.md R99). -/
theorem decode_zero : decode 0x00000000#32 = .ok .nop := Laws.RoundTrip.nop rfl

/-- Format N fixes every bit of the word, so no word but the all-zero one is NOP (30_encoding.md R94, R99). -/
theorem decode_eq_nop_iff {w : Word} : decode w = .ok .nop ↔ w = 0x00000000#32 := by
  constructor
  · intro h
    obtain ⟨row, hrow, hmask, hbuild, -⟩ := decode_eq_ok_iff.mp h
    obtain ⟨hop, hformat⟩ := row_of_build_nop (List.mem_of_find?_eq_some hrow) hbuild
    calc
      w = w &&& Format.mask .n := (BitVec.and_allOnes (x := w)).symm
      _ = row.matchWord := by rw [← hformat, hmask]
      _ = 0x00000000#32 := by rw [OpcodeRow.matchWord, hop]; rfl
  · rintro rfl
    exact decode_zero

/-- Settles O16: the row of a DIVR word admits no command with one destination. -/
theorem divrWithOneDestinationIsIllegal : Obligations.DivrWithOneDestinationIsIllegal := by
  intro w hop hfields i h
  have hsame : rdField w = rs3Field w := by rw [rdField, rs3Field, regField, regField, hfields]
  exact rdField_ne_rs3Field_of_decode hop h hsame

end Sys2Proof

namespace Sys2Proof.Machine

/-- Outside the fault state a word that decodes runs its command (60_exceptions.md R230). -/
theorem execWord_of_decode {s : State} {w : Word} {i : Instr} (hf : s.fault = false) (hd : decode w = .ok i) :
    execWord w s = exec i s := by
  simp only [execWord, hf, hd, Bool.false_eq_true, if_false]

/-- Outside the fault state NOP completes and leaves the whole state (40_data.md R120). -/
theorem exec_nop {s : State} (hf : s.fault = false) : exec .nop s = .next s := runCommand_ok hf s

/-- Settles O17: format N's mask leaves no free bit, and the all-zero word runs NOP. -/
theorem nopHasExactlyOneWord : Obligations.NopHasExactlyOneWord :=
  ⟨fun _ => decode_eq_nop_iff, fun _ hf => (execWord_of_decode hf decode_zero).trans (exec_nop hf)⟩

end Sys2Proof.Machine

/-! ## Multiplication by x in the forward domain is a shift of the reflected register (41_gf2_arith.md R142;
42_crc_engine.md R170, R171) -/

namespace Sys2Proof.Machine

/-- Reversing the bits twice gives the word back (42_crc_engine.md R170). -/
theorem rev32_rev32 (v : Word) : rev32 (rev32 v) = v := BitVec.reverse_reverse_eq

/-- Bit `i` of the reversed word (42_crc_engine.md R170). -/
theorem rev32_getLsbD {i : Nat} (v : Word) (h : i < 32) : (rev32 v).getLsbD i = v.getLsbD (31 - i) := by
  rw [rev32, BitVec.getLsbD_reverse, BitVec.getMsbD_eq_getLsbD, decide_eq_true h, Bool.true_and]

/-- Reversing the bits is linear over XOR (42_crc_engine.md R170). -/
theorem rev32_xor (a b : Word) : rev32 (a ^^^ b) = rev32 a ^^^ rev32 b := by
  apply BitVec.eq_of_getLsbD_eq
  intro i hi
  simp only [BitVec.getLsbD_xor, rev32_getLsbD _ hi]

/-- The reversed register shifts to the left. -/
theorem rev32_shiftRight_one (v : Word) : rev32 (v >>> 1) = rev32 v <<< 1 := by
  apply BitVec.eq_of_getLsbD_eq
  intro i hi
  rw [rev32_getLsbD _ hi, BitVec.getLsbD_ushiftRight, BitVec.getLsbD_shiftLeft, decide_eq_true hi, Bool.true_and]
  cases i with
  | zero => exact BitVec.getLsbD_of_ge v _ (Nat.le_refl 32)
  | succ i =>
    rw [Nat.add_sub_cancel, rev32_getLsbD _ (by omega), show 1 + (31 - (i + 1)) = 31 - i by omega]
    simp

/-- The generator without its leading term is REFPOLY reversed (10_state.md R42). -/
theorem rev32_refPoly_toNat : (rev32 refPoly).toNat = gNat % 2 ^ 32 := by decide +kernel

/-- A reduced multiple of x by its low 32 bits. -/
theorem timesX_eq_mod {a : Nat} (h : a < 2 ^ 32) :
    timesX a = if a.testBit 31 then (a <<< 1 % 2 ^ 32) ^^^ (gNat % 2 ^ 32) else a <<< 1 % 2 ^ 32 := by
  have htop : (a <<< 1).testBit 32 = a.testBit 31 := by simp
  rw [← Nat.mod_eq_of_lt (timesX_lt h), timesX, htop]
  split
  · exact Nat.xor_mod_two_pow
  · rfl

/-- A step of the reflected shift register multiplies the forward value by x modulo G (42_crc_engine.md R171). -/
theorem rev32_crcShift_toNat (s : Word) : (rev32 (crcShift s)).toNat = timesX (rev32 s).toNat := by
  have htop : (rev32 s).toNat.testBit 31 = s.getLsbD 0 := rev32_getLsbD s (by decide)
  rw [timesX_eq_mod (rev32 s).isLt, htop, ← rev32_refPoly_toNat, ← BitVec.toNat_shiftLeft, ← BitVec.toNat_xor,
    ← rev32_shiftRight_one, ← rev32_xor, crcShift]
  split <;> rfl

/-- `n` steps of the reflected shift register multiply the forward value by x^n modulo G. -/
theorem rev32_crcShifts_toNat (n : Nat) (s : Word) : (rev32 (crcShifts n s)).toNat = timesX^[n] (rev32 s).toNat := by
  induction n generalizing s with
  | zero => rfl
  | succ n ih => rw [crcShifts, ih, rev32_crcShift_toNat, Function.iterate_succ_apply]

/-- Multiplication by x is linear over XOR. -/
theorem timesX_xor (a b : Nat) : timesX (a ^^^ b) = timesX a ^^^ timesX b := by
  simp only [timesX, Nat.shiftLeft_xor_distrib, Nat.testBit_xor]
  cases (a <<< 1).testBit 32 <;> cases (b <<< 1).testBit 32
  · rfl
  · exact Nat.xor_assoc ..
  · exact Nat.xor_right_comm ..
  · change a <<< 1 ^^^ b <<< 1 = (a <<< 1 ^^^ gNat) ^^^ (b <<< 1 ^^^ gNat)
    rw [Nat.xor_comm (b <<< 1), Nat.xor_assoc, ← Nat.xor_assoc gNat, Nat.xor_self, Nat.zero_xor]

/-- A factor x moves out of a product (41_gf2_arith.md R143). -/
theorem mulm_timesX_left (a b : Nat) : mulm (timesX a) b = timesX (mulm a b) := by
  induction b using Nat.strongRecOn generalizing a with
  | ind b ih =>
    by_cases hb : b = 0
    · rw [hb, mulm_zero_right, mulm_zero_right]
      rfl
    · rw [mulm_step, mulm_step a, timesX_xor, ih (b >>> 1) (by rw [Nat.shiftRight_eq_div_pow]; omega)]
      split <;> rfl

theorem mulm_iterate_timesX_left (n a b : Nat) : mulm (timesX^[n] a) b = timesX^[n] (mulm a b) := by
  induction n with
  | zero => rfl
  | succ n ih => rw [Function.iterate_succ_apply', Function.iterate_succ_apply', mulm_timesX_left, ih]

/-- A product with a reduced first factor is reduced (41_gf2_arith.md R143). -/
theorem mulm_lt {a : Nat} (h : a < 2 ^ 32) (b : Nat) : mulm a b < 2 ^ 32 := mulmLoop_lt _ a b 0 h (by decide)

/-- Below the degree of G multiplication by x is a shift. -/
theorem timesX_of_lt {a : Nat} (h : a < 2 ^ 31) : timesX a = a <<< 1 := by
  have hlt : a <<< 1 < 2 ^ 32 := by rw [Nat.shiftLeft_eq]; omega
  rw [timesX, Nat.testBit_lt_two_pow hlt]
  rfl

/-- A polynomial is its constant term and x times the rest. -/
theorem xor_shiftRight_one_shiftLeft_one (b : Nat) : (if b.testBit 0 then 1 else 0) ^^^ (b >>> 1) <<< 1 = b := by
  apply Nat.eq_of_testBit_eq
  intro i
  cases i with
  | zero =>
    rw [Nat.testBit_xor, Nat.testBit_shiftLeft]
    cases b.testBit 0 <;> rfl
  | succ i =>
    have hone : (if b.testBit 0 then 1 else 0).testBit (i + 1) = false := by
      split <;> simp [Nat.testBit_succ]
    rw [Nat.testBit_xor, hone]
    simp [Nat.add_comm 1 i]

/-- 1 is the identity (41_gf2_arith.md R143). -/
theorem mulm_one_left {b : Nat} (h : b < 2 ^ 32) : mulm 1 b = b := by
  induction b using Nat.strongRecOn with
  | ind b ih =>
    by_cases hb : b = 0
    · rw [hb, mulm_zero_right]
    · have hhalf : b >>> 1 = b / 2 := Nat.shiftRight_eq_div_pow b 1
      rw [mulm_step, mulm_timesX_left, ih (b >>> 1) (by omega) (by omega), timesX_of_lt (by omega),
        xor_shiftRight_one_shiftLeft_one]

end Sys2Proof.Machine

/-! ## The bytes of a patch, folded one after the other, act on the CRC as 32 shifts of the patch word
(43_patch.md R201, R202) -/

namespace Sys2Proof.Machine

theorem crcShifts_add (m n : Nat) (s : Word) : crcShifts (m + n) s = crcShifts n (crcShifts m s) := by
  induction m generalizing s with
  | zero => rw [Nat.zero_add, crcShifts]
  | succ m ih => rw [Nat.succ_add, crcShifts, ih, crcShifts]

/-- While only zeros leave the register, its steps are plain shifts (42_crc_engine.md R171). -/
theorem crcShifts_of_low_zeros {n : Nat} {s : Word} (h : ∀ i < n, s.getLsbD i = false) : crcShifts n s = s >>> n := by
  induction n generalizing s with
  | zero => rfl
  | succ n ih =>
    have hstep : crcShift s = s >>> 1 := by
      rw [crcShift, h 0 (Nat.succ_pos n)]
      rfl
    have hrest : ∀ i < n, (s >>> 1).getLsbD i = false := by
      intro i hi
      rw [BitVec.getLsbD_ushiftRight]
      exact h (1 + i) (by omega)
    rw [crcShifts, hstep, ih hrest, ← BitVec.shiftRight_add, Nat.add_comm 1 n]

/-- The bytes from `j` on, without byte `j`, are the bytes from `j + 1` on with a zero byte below (20_memory.md R70). -/
theorem shiftRight_xor_byteOf (v : Word) (j : Nat) :
    v >>> (8 * j) ^^^ (byteOf v j).setWidth 32 = v >>> (8 * (j + 1)) <<< 8 := by
  apply BitVec.eq_of_getLsbD_eq
  intro i hi
  rw [BitVec.getLsbD_xor, BitVec.getLsbD_setWidth, byteOf_getLsbD, BitVec.getLsbD_shiftLeft,
    BitVec.getLsbD_ushiftRight, BitVec.getLsbD_ushiftRight]
  by_cases h8 : i < 8
  · simp [hi, h8]
  · simp [hi, h8, show 8 * (j + 1) + (i - 8) = 8 * j + i by omega]

/-- Eight steps move the bytes from `j + 1` on down by a byte. -/
theorem crcShifts_shiftRight_shiftLeft (v : Word) (j : Nat) :
    crcShifts 8 (v >>> (8 * (j + 1)) <<< 8) = v >>> (8 * (j + 1)) := by
  rw [crcShifts_of_low_zeros fun i hi => by simp [hi]]
  apply BitVec.eq_of_getLsbD_eq
  intro i _
  rw [BitVec.getLsbD_ushiftRight, BitVec.getLsbD_shiftLeft, Nat.add_sub_cancel_left]
  by_cases h : 8 + i < 32
  · simp [h]
  · simp [h, BitVec.getLsbD_of_ge v (8 * (j + 1) + i) (by omega)]

/-- What folding the low `j` bytes of `v` has changed in the CRC: `8 * j` steps from `v`, without the bytes of `v` that
are still to come. -/
def patchTrace (v : Word) (j : Nat) : Word := crcShifts (8 * j) v ^^^ v >>> (8 * j)

/-- Before the first byte nothing has changed. -/
theorem patchTrace_zero (v : Word) : patchTrace v 0 = 0#32 := BitVec.xor_self

/-- After the last byte the CRC has changed by 32 steps of the whole word. -/
theorem patchTrace_four (v : Word) : patchTrace v 4 = crcShifts 32 v := by
  rw [patchTrace, BitVec.ushiftRight_eq_zero (Nat.le_refl 32), BitVec.xor_zero]

/-- The next byte enters at the low end and the register shifts 8 times (42_crc_engine.md R171). -/
theorem crcShifts_patchTrace_xor_byteOf (v : Word) (j : Nat) :
    crcShifts 8 (patchTrace v j ^^^ (byteOf v j).setWidth 32) = patchTrace v (j + 1) := by
  rw [patchTrace, BitVec.xor_assoc, shiftRight_xor_byteOf, crcShifts_xor, crcShifts_shiftRight_shiftLeft,
    ← crcShifts_add, patchTrace, Nat.mul_succ]

/-- Folding a byte is linear over XOR in the register and the byte together (42_crc_engine.md R171). -/
theorem fold_xor (acc x : Word) (b c : Byte) :
    fold (acc ^^^ x) (b ^^^ c) = fold acc b ^^^ crcShifts 8 (x ^^^ c.setWidth 32) := by
  have hentry : acc ^^^ x ^^^ crcXorOut ^^^ (b ^^^ c).setWidth 32 =
      (acc ^^^ crcXorOut ^^^ b.setWidth 32) ^^^ (x ^^^ c.setWidth 32) := by
    rw [BitVec.setWidth_xor]
    ac_rfl
  rw [fold, hentry, crcShifts_xor, fold]
  ac_rfl

/-- A byte XORed with byte `j` of `v` carries the change one byte on. -/
theorem fold_xor_byteOf (acc v : Word) (b : Byte) (j : Nat) :
    fold (acc ^^^ patchTrace v j) (b ^^^ byteOf v j) = fold acc b ^^^ patchTrace v (j + 1) := by
  rw [fold_xor, crcShifts_patchTrace_xor_byteOf]

/-- The four bytes of a window in stream order (10_state.md R36). -/
theorem window_toList (w : Vector Byte 4) : w.toList = [w[0], w[1], w[2], w[3]] := by
  apply List.ext_getElem w.size_toArray
  intro i hi _
  have h4 : i < 4 := w.size_toArray ▸ hi
  match i with
  | 0 | 1 | 2 | 3 => rfl

/-- The CRC of a stream that ends in the window. -/
theorem crc_append_window (bytes : List Byte) (w : Vector Byte 4) :
    crc (bytes ++ w.toList) = fold (fold (fold (fold (crc bytes) w[0]) w[1]) w[2]) w[3] := by
  rw [crc, List.foldl_append, window_toList]
  rfl

/-- XORing the patch of a delta into the window XORs 32 steps of the reversed delta into the CRC (43_patch.md R201,
R202). -/
theorem crc_append_xorWindow_patchBytes (bytes : List Byte) (w : Vector Byte 4) (d : Word) :
    crc (bytes ++ (xorWindow w (patchBytes d)).toList) = crc (bytes ++ w.toList) ^^^ crcShifts 32 (rev32 d) := by
  have hbyte (j : Nat) (hj : j < 4) : (xorWindow w (patchBytes d))[j] = w[j] ^^^ byteOf (rev32 d) j := by
    match j with
    | 0 | 1 | 2 | 3 => simp [xorWindow, patchBytes]
  rw [crc_append_window, crc_append_window, hbyte, hbyte, hbyte, hbyte, ← patchTrace_four]
  have hstart : crc bytes = crc bytes ^^^ patchTrace (rev32 d) 0 := by rw [patchTrace_zero, BitVec.xor_zero]
  rw [← fold_xor_byteOf, ← fold_xor_byteOf, ← fold_xor_byteOf, ← fold_xor_byteOf, ← hstart]

end Sys2Proof.Machine

/-! ## The patch guarantee (43_patch.md R200, R202) -/

namespace Sys2Proof.Machine

/-- The reciprocal of x^32, which delta multiplies by for 32 tail bits (43_patch.md R200). -/
def recipX32 : Nat := 0xCBF1ACDA

theorem recip_powm_two_32 : recip (powm 2 32) = .ok recipX32 := by decide +kernel

theorem iterate_timesX_recipX32 : timesX^[32] recipX32 = 1 := by decide +kernel

/-- For 32 tail bits delta completes with the reciprocal of x^32 times the difference (43_patch.md R200). -/
theorem delta_32 (o t : Word) : ∃ d, delta o t 32 = .ok d ∧ d.toNat = mulm recipX32 (o ^^^ t).toNat := by
  refine ⟨BitVec.ofNat 32 (mulm recipX32 (o ^^^ t).toNat), ?_, ?_⟩
  · rw [delta, recip_powm_two_32]
  · rw [BitVec.toNat_ofNat, Nat.mod_eq_of_lt (mulm_lt (by decide) _)]

/-- 32 steps of the register take the reversed delta to the difference that it was computed for. -/
theorem crcShifts_rev32_delta {d e : Word} (h : d.toNat = mulm recipX32 e.toNat) :
    crcShifts 32 (rev32 d) = rev32 e := by
  have hforward : (rev32 (crcShifts 32 (rev32 d))).toNat = e.toNat := by
    calc (rev32 (crcShifts 32 (rev32 d))).toNat
      _ = timesX^[32] d.toNat := by rw [rev32_crcShifts_toNat, rev32_rev32]
      _ = timesX^[32] (mulm recipX32 e.toNat) := by rw [h]
      _ = mulm 1 e.toNat := by rw [← mulm_iterate_timesX_left, iterate_timesX_recipX32]
      _ = e.toNat := mulm_one_left e.isLt
  rw [← BitVec.eq_of_toNat_eq hforward, rev32_rev32]

/-- Settles O41: the patch changes the CRC by 32 steps of the reversed delta, which is multiplication by x^32 in the
forward domain and so undoes the reciprocal in the delta. -/
theorem patchForcesTheTarget : Obligations.PatchForcesTheTarget := by
  intro bytes w target
  obtain ⟨d, hd, hval⟩ := delta_32 (rev32 (crc (bytes ++ w.toList))) (rev32 target)
  refine ⟨d, hd, ?_⟩
  rw [crc_append_xorWindow_patchBytes, crcShifts_rev32_delta hval, rev32_xor, rev32_rev32, rev32_rev32,
    ← BitVec.xor_assoc, BitVec.xor_self, BitVec.zero_xor]

end Sys2Proof.Machine

/-! ## The first error's code is kept, and which error it is: OperandRange (60_exceptions.md R233, R238) -/

namespace Sys2Proof.Machine

/-- Settles O24, by the four things a bus event can do to STATUS: in the fault state only the drop of a command word
and an event that leaves STATUS alone are left. -/
theorem firstErrorIsKept : Obligations.FirstErrorIsKept := by
  intro s t e h hf hn
  rcases runEvent_status_cases h with ⟨hr, -⟩ | ⟨-, -, rfl⟩ | ⟨hf', -, -⟩ | ⟨-, hcmd, herr, -, -⟩
  · exact absurd hr hn
  · exact ⟨rfl, fun _ _ => ⟨rfl, rfl, rfl⟩⟩
  · exact absurd hf (by simp [hf'])
  · exact ⟨herr, fun w hw => absurd hf (by simp [hcmd w hw])⟩

/-- Different errors have different codes (60_exceptions.md R232). -/
theorem ErrorCause.code_injective : Function.Injective ErrorCause.code := by
  intro c d
  cases c <;> cases d <;> decide

/-- Outside the fault state a command whose writes never set FAULT raises an error exactly when its pseudocode does
(60_exceptions.md R230, R231). -/
theorem runCommand_raisesOnly_iff {s : State} {effect : Except ErrorCause State} (hf : s.fault = false)
    (hkeep : ∀ t, effect = .ok t → t.fault = s.fault) (c : ErrorCause) :
    (∃ t, runCommand s effect = .next t ∧ s.raisesOnly t c.code) ↔ effect = .error c := by
  cases effect with
  | ok u =>
    rw [runCommand_ok hf]
    refine ⟨?_, nofun⟩
    rintro ⟨_, ⟨⟩, -, hset, -⟩
    have hclear : u.fault = false := (hkeep u rfl).trans hf
    exact absurd hset (by simp [hclear])
  | error d =>
    rw [runCommand_error hf]
    constructor
    · rintro ⟨_, ⟨⟩, hcode, -⟩
      rw [ErrorCause.code_injective hcode]
    · rintro ⟨⟩
      exact ⟨_, rfl, raisesOnly_raise s c⟩

/-- The pseudocode `effect` raises OperandRange exactly when one of the registers `operands` has bit 32 set at `s`, and
its writes keep FAULT. -/
def raisesRangeExactlyOn (s : State) (operands : List Reg) (effect : Except ErrorCause State) : Prop :=
  (∀ t, effect = .ok t → t.fault = s.fault) ∧
  (effect = .error .operandRange ↔ ∃ r ∈ operands, (s.reg r).getLsbD 32 = true)

theorem raisesRangeExactlyOn_ok {s t : State} (h : t.fault = s.fault) : raisesRangeExactlyOn s [] (.ok t) :=
  ⟨fun _ hu => by cases hu; exact h, by simp⟩

theorem raisesRangeExactlyOn_error (s : State) {e : ErrorCause} (h : e ≠ .operandRange) :
    raisesRangeExactlyOn s [] (.error e) :=
  ⟨nofun, by simp [h]⟩

/-- Reading a 32-bit operand first adds its register to the ones that are tested. -/
theorem raisesRangeExactlyOn_operand {s : State} {r : Reg} {rest : List Reg} {k : Word → Except ErrorCause State}
    (h : ∀ v, raisesRangeExactlyOn s rest (k v)) : raisesRangeExactlyOn s (r :: rest) (operand32 s r >>= k) := by
  cases hbit : (s.reg r).getLsbD 32 with
  | true =>
    rw [operand32_of_set hbit]
    exact ⟨nofun, fun _ => ⟨r, List.mem_cons_self, hbit⟩, fun _ => rfl⟩
  | false =>
    rw [operand32_of_clear hbit]
    obtain ⟨hkeep, hrange⟩ := h ((s.reg r).setWidth 32)
    refine ⟨hkeep, hrange.trans ?_⟩
    rw [List.exists_mem_cons_iff, hbit, or_iff_right Bool.false_ne_true]

/-- A computation of the units that never raises OperandRange adds no register to the ones that are tested. -/
theorem raisesRangeExactlyOn_bind {α : Type} {s : State} {x : Except ErrorCause α} {k : α → Except ErrorCause State}
    (hx : x ≠ .error .operandRange) (h : ∀ a, raisesRangeExactlyOn s [] (k a)) :
    raisesRangeExactlyOn s [] (x >>= k) := by
  cases x with
  | ok a => exact h a
  | error e => exact raisesRangeExactlyOn_error s fun he => hx (congrArg _ he)

/-- The only error of `divrem` is DivisionByZero (41_gf2_arith.md R141). -/
theorem divrem_ne_operandRange (a b : Nat) : divrem a b ≠ .error .operandRange := by
  by_cases hb : b = 0
  · simp [hb, divrem_zero]
  · simp [divrem_of_ne_zero hb]

/-- The only error of `recip` is NoReciprocal (41_gf2_arith.md R145). -/
theorem recip_ne_operandRange (a : Nat) : recip a ≠ .error .operandRange := by
  unfold recip
  dsimp only
  split <;> simp

/-- The only error of `delta` is that of `recip` (43_patch.md R200, R209). -/
theorem delta_ne_operandRange (o t : Word) (k : Nat) : delta o t k ≠ .error .operandRange := by
  unfold delta
  split
  case h_1 => simp
  case h_2 e he =>
    intro hd
    cases hd
    exact recip_ne_operandRange _ he

/-- Every command is one `runCommand` whose pseudocode raises OperandRange exactly on its 32-bit operands
(60_exceptions.md R233). -/
theorem exec_raisesRangeExactlyOn (i : Instr) (s : State) :
    ∃ effect, exec i s = runCommand s effect ∧ raisesRangeExactlyOn s (operands32 i) effect := by
  cases i
  case nop | ldi | ldg | padd | deg | crcinit | crcbi | crcrd | crcraw | winrd =>
    exact ⟨.ok _, rfl, raisesRangeExactlyOn_ok rfl⟩
  case powm | crcw | crcset | rev32 | apply | winld =>
    exact ⟨_, rfl, raisesRangeExactlyOn_operand fun _ => raisesRangeExactlyOn_ok rfl⟩
  case mulm =>
    exact ⟨_, rfl, raisesRangeExactlyOn_operand fun _ => raisesRangeExactlyOn_operand fun _ =>
      raisesRangeExactlyOn_ok rfl⟩
  case recip =>
    exact ⟨_, rfl, raisesRangeExactlyOn_operand fun _ => raisesRangeExactlyOn_bind (recip_ne_operandRange _) fun _ =>
      raisesRangeExactlyOn_ok rfl⟩
  case delta =>
    exact ⟨_, rfl, raisesRangeExactlyOn_operand fun _ => raisesRangeExactlyOn_operand fun _ =>
      raisesRangeExactlyOn_bind (delta_ne_operandRange _ _ _) fun _ => raisesRangeExactlyOn_ok rfl⟩
  case divr =>
    refine ⟨_, rfl, ?_⟩
    split
    · exact raisesRangeExactlyOn_error s (by decide)
    · exact raisesRangeExactlyOn_bind (divrem_ne_operandRange _ _) fun _ => raisesRangeExactlyOn_ok rfl

/-- Settles O25: the code 2 is OperandRange's alone, and a command's pseudocode raises it only at the reads of its
32-bit operands. -/
theorem operandRangeExactly : Obligations.OperandRangeExactly := by
  intro i s hf
  obtain ⟨effect, he, hkeep, hrange⟩ := exec_raisesRangeExactlyOn i s
  rw [he]
  exact (runCommand_raisesOnly_iff hf hkeep .operandRange).trans hrange

end Sys2Proof.Machine

section

/- Each proof below is elaborated before the next command rather than beside it: elaborated side by side with the tests
above, they would need more threads at once, each with its own stack, than the check's memory limit leaves room for. -/
set_option deprecated.oldSectionVars true

/-! ## Decoding and encoding are inverse to each other (30_encoding.md R91, R94 to R97) -/

namespace Sys2Proof

/-- Settles O13: the word of each command passes the checks of its row. -/
theorem decodeOfEncode : Obligations.DecodeOfEncode := by
  intro i
  cases i with
  | nop => exact Laws.RoundTrip.nop
  | ldi rd imm8 => exact Laws.RoundTrip.ldi rd imm8
  | ldg rd => exact Laws.RoundTrip.ldg rd
  | padd rd rs1 rs2 => exact Laws.RoundTrip.padd rd rs1 rs2
  | deg rd rs1 => exact Laws.RoundTrip.deg rd rs1
  | divr rd rd2 rs1 rs2 => exact Laws.RoundTrip.divr rd rd2 rs1 rs2
  | mulm rd rs1 rs2 => exact Laws.RoundTrip.mulm rd rs1 rs2
  | powm rd rs1 rs2 => exact Laws.RoundTrip.powm rd rs1 rs2
  | recip rd rs1 => exact Laws.RoundTrip.recip rd rs1
  | crcinit => exact Laws.RoundTrip.crcinit
  | crcbi imm8 => exact Laws.RoundTrip.crcbi imm8
  | crcw rs1 => exact Laws.RoundTrip.crcw rs1
  | crcset rs1 => exact Laws.RoundTrip.crcset rs1
  | crcrd rd => exact Laws.RoundTrip.crcrd rd
  | crcraw rd => exact Laws.RoundTrip.crcraw rd
  | rev32 rd rs1 => exact Laws.RoundTrip.rev32 rd rs1
  | delta rd rs1 rs2 rs3 => exact Laws.RoundTrip.delta rd rs1 rs2 rs3
  | apply rs1 => exact Laws.RoundTrip.apply rs1
  | winld rs1 => exact Laws.RoundTrip.winld rs1
  | winrd rd => exact Laws.RoundTrip.winrd rd

/-- A register field's 3 bits are the bits of the register that it names. -/
theorem regBits_regField (w : Word) (lo : Nat) : regBits (regField w lo) = w.extractLsb' lo 3 := by
  apply BitVec.eq_of_toNat_eq
  rw [regBits_toNat]
  exact Nat.mod_eq_of_lt (w.extractLsb' lo 3).isLt

/-- Two register fields name one register exactly when their bits agree (30_encoding.md R92). -/
theorem regField_eq_regField_iff {w : Word} {lo hi : Nat} :
    regField w lo = regField w hi ↔ w.extractLsb' lo 3 = w.extractLsb' hi 3 := by
  constructor
  · intro h
    rw [← regBits_regField, h, regBits_regField]
  · intro h
    rw [regField, h, ← regField]

/-- A word whose bits 11:8 are clear is made of its fields (30_encoding.md R91). -/
theorem encodeFields_fields {w : Word} (hmbz : w.extractLsb' 8 4 = 0#4) :
    encodeFields (opField w) (rdField w) (rs1Field w) (rs2Field w) (rs3Field w) (imm8Field w) = w := by
  have join (mid lo : Nat) {m n : Nat} (h : mid = lo + n) :
      w.extractLsb' mid m ++ w.extractLsb' lo n = w.extractLsb' lo (m + n) :=
    BitVec.extractLsb'_append_extractLsb'_eq_extractLsb' h
  calc encodeFields (opField w) (rdField w) (rs1Field w) (rs2Field w) (rs3Field w) (imm8Field w)
    _ = w.extractLsb' 24 8 ++ w.extractLsb' 21 3 ++ w.extractLsb' 18 3 ++ w.extractLsb' 15 3 ++
          w.extractLsb' 12 3 ++ w.extractLsb' 8 4 ++ w.extractLsb' 0 8 := by
      simp only [encodeFields, opField, rdField, rs1Field, rs2Field, rs3Field, imm8Field, regBits_regField, hmbz]
    _ = w.extractLsb' 0 32 := by
      rw [join 24 21 rfl, join 21 18 rfl, join 18 15 rfl, join 15 12 rfl, join 12 8 rfl, join 8 0 rfl]
    _ = w := BitVec.extractLsb'_eq_self

section MatchedWord

variable {w mask : Word} {op : BitVec 8}

/-- Bits of a word that its row's mask covers agree with the row's match value (30_encoding.md R96). -/
theorem extractLsb'_of_mask {lo len : Nat} (h : w &&& mask = op ++ (0#24))
    (hmask : mask.extractLsb' lo len = BitVec.allOnes len) :
    w.extractLsb' lo len = (op ++ (0#24)).extractLsb' lo len := by
  rw [← h, BitVec.extractLsb'_and, hmask, BitVec.and_allOnes]

/-- Bits below OP that the mask covers are 0. -/
theorem extractLsb'_of_mask_low {lo len : Nat} (h : w &&& mask = op ++ (0#24))
    (hmask : mask.extractLsb' lo len = BitVec.allOnes len) (hlo : lo + len ≤ 24) : w.extractLsb' lo len = 0#len := by
  rw [extractLsb'_of_mask h hmask]
  exact (BitVec.extractLsb'_append_eq_of_add_le hlo).trans BitVec.extractLsb'_zero

/-- A register field that the mask covers names register 0. -/
theorem regField_of_mask {lo : Nat} (h : w &&& mask = op ++ (0#24)) (hmask : mask.extractLsb' lo 3 = 7#3)
    (hlo : lo + 3 ≤ 24) : regField w lo = 0 :=
  regField_of_bits (extractLsb'_of_mask_low h hmask hlo)

/-- The OP field of a matched word is the row's (30_encoding.md R96). -/
theorem opField_of_mask (h : w &&& mask = op ++ (0#24)) (hmask : mask.extractLsb' 24 8 = 0xFF#8) :
    opField w = op :=
  (extractLsb'_of_mask h hmask).trans BitVec.extractLsb'_append_eq_left

end MatchedWord

/-- Every format fixes OP (30_encoding.md R94). -/
theorem Format.mask_op (f : Format) : f.mask.extractLsb' 24 8 = 0xFF#8 := by cases f <;> decide

/-- Every format fixes bits 11:8, which belong to no field (30_encoding.md R91, R94). -/
theorem Format.mask_mbz (f : Format) : f.mask.extractLsb' 8 4 = 0xF#4 := by cases f <;> decide

/-- The word that a format makes of OP and of the fields it has in `w`, every other field zero (30_encoding.md R94). -/
def Format.encodeFrom (f : Format) (op : BitVec 8) (w : Word) : Word :=
  match f with
  | .n    => encodeFields op 0 0 0 0 0#8
  | .ri   => encodeFields op (rdField w) 0 0 0 (imm8Field w)
  | .r    => encodeFields op (rdField w) 0 0 0 0#8
  | .s    => encodeFields op 0 (rs1Field w) 0 0 0#8
  | .i    => encodeFields op 0 0 0 0 (imm8Field w)
  | .rr   => encodeFields op (rdField w) (rs1Field w) 0 0 0#8
  | .rrr  => encodeFields op (rdField w) (rs1Field w) (rs2Field w) 0 0#8
  | .dd   => encodeFields op (rdField w) (rs1Field w) (rs2Field w) (rs3Field w) 0#8
  | .rrrr => encodeFields op (rdField w) (rs1Field w) (rs2Field w) (rs3Field w) 0#8

/-- A word that matches OP under its format's mask has no bits but those of OP and of the format's fields
(30_encoding.md R94). -/
theorem Format.encodeFrom_of_mask {f : Format} {op : BitVec 8} {w : Word} (h : w &&& f.mask = op ++ (0#24)) :
    f.encodeFrom op w = w := by
  have hop : opField w = op := opField_of_mask h f.mask_op
  have hword := encodeFields_fields (extractLsb'_of_mask_low h f.mask_mbz (by decide))
  have hrd (hm : f.mask.extractLsb' 21 3 = 7#3) : rdField w = 0 := regField_of_mask h hm (by decide)
  have hrs1 (hm : f.mask.extractLsb' 18 3 = 7#3) : rs1Field w = 0 := regField_of_mask h hm (by decide)
  have hrs2 (hm : f.mask.extractLsb' 15 3 = 7#3) : rs2Field w = 0 := regField_of_mask h hm (by decide)
  have hrs3 (hm : f.mask.extractLsb' 12 3 = 7#3) : rs3Field w = 0 := regField_of_mask h hm (by decide)
  have himm (hm : f.mask.extractLsb' 0 8 = 0xFF#8) : imm8Field w = 0#8 :=
    extractLsb'_of_mask_low h hm (by decide)
  rw [hop] at hword
  cases f with
  | n => rwa [hrd rfl, hrs1 rfl, hrs2 rfl, hrs3 rfl, himm rfl] at hword
  | ri => rwa [hrs1 rfl, hrs2 rfl, hrs3 rfl] at hword
  | r => rwa [hrs1 rfl, hrs2 rfl, hrs3 rfl, himm rfl] at hword
  | s => rwa [hrd rfl, hrs2 rfl, hrs3 rfl, himm rfl] at hword
  | i => rwa [hrd rfl, hrs1 rfl, hrs2 rfl, hrs3 rfl] at hword
  | rr => rwa [hrs2 rfl, hrs3 rfl, himm rfl] at hword
  | rrr => rwa [hrs3 rfl, himm rfl] at hword
  | dd => rwa [himm rfl] at hword
  | rrrr => rwa [himm rfl] at hword

/-- The command that a row builds is encoded by the row's OP and format (30_encoding.md R95). -/
theorem encode_build {row : OpcodeRow} (h : row ∈ opcodeTable) (w : Word) :
    encode (row.build (rdField w) (rs1Field w) (rs2Field w) (rs3Field w) (imm8Field w)) =
      row.format.encodeFrom row.op w := by
  revert row
  simp only [opcodeTable, List.forall_mem_cons]
  exact ⟨rfl, rfl, rfl, rfl, rfl, rfl, rfl, rfl, rfl, rfl, rfl, rfl, rfl, rfl, rfl, rfl, rfl, rfl, rfl, rfl, nofun⟩

/-- Settles O14: the mask of the word's row leaves no bit free but those of the command's operands. -/
theorem encodeOfDecode : Obligations.EncodeOfDecode := by
  intro w i h
  obtain ⟨row, hrow, hmask, rfl, hwf⟩ := decode_eq_ok_iff.mp h
  exact ⟨hwf, (encode_build (List.mem_of_find?_eq_some hrow) w).trans (Format.encodeFrom_of_mask hmask)⟩

/-- The row that is found by an OP has it. -/
theorem op_of_find? {row : OpcodeRow} {op : BitVec 8} (h : opcodeTable.find? (fun r => r.op == op) = some row) :
    row.op = op := eq_of_beq (List.find?_some (p := fun r : OpcodeRow => r.op == op) h)

/-- A row of the opcode map is the one found by its OP (30_encoding.md R96). -/
theorem find?_opcodeTable {row : OpcodeRow} (h : row ∈ opcodeTable) :
    opcodeTable.find? (fun r => r.op == row.op) = some row := by
  obtain ⟨found, hfound⟩ := Option.isSome_iff_exists.mp
    (List.find?_isSome (p := fun r : OpcodeRow => r.op == row.op) |>.mpr ⟨row, h, beq_self_eq_true row.op⟩)
  have hop : found.op = row.op := op_of_find? hfound
  rw [hfound, List.inj_on_of_nodup_map opcodeTable_ops_distinct (List.mem_of_find?_eq_some hfound) h hop]

/-- Only the row of DIVR builds an ill-formed term, when rd and rd2 are equal (30_encoding.md R97). -/
theorem wellFormed_build_iff {row : OpcodeRow} (h : row ∈ opcodeTable) (rd rs1 rs2 rs3 : Reg) (imm8 : Byte) :
    (row.build rd rs1 rs2 rs3 imm8).wellFormed = true ↔ ¬ (row.op = 0x11#8 ∧ rd = rs3) := by
  revert row
  simp [opcodeTable, Instr.wellFormed]

/-- A word decodes exactly when it matches a row under its format's mask and is no DIVR with rd = rd2 (30_encoding.md
R96, R97). -/
theorem decodes_iff {w : Word} : (∃ i, decode w = .ok i) ↔
    (∃ row ∈ opcodeTable, w &&& row.format.mask = row.matchWord) ∧ ¬ (opField w = 0x11#8 ∧ rdField w = rs3Field w) := by
  constructor
  · rintro ⟨i, h⟩
    obtain ⟨row, hrow, hmask, rfl, hwf⟩ := decode_eq_ok_iff.mp h
    have hmem := List.mem_of_find?_eq_some hrow
    have hop : row.op = opField w := op_of_find? hrow
    exact ⟨⟨row, hmem, hmask⟩, hop ▸ (wellFormed_build_iff hmem _ _ _ _ _).mp hwf⟩
  · rintro ⟨⟨row, hmem, hmask⟩, hdivr⟩
    have hop : opField w = row.op := opField_of_mask hmask row.format.mask_op
    exact ⟨_, decode_of_row (hop ▸ find?_opcodeTable hmem) hmask rfl
      ((wellFormed_build_iff hmem _ _ _ _ _).mpr (hop ▸ hdivr))⟩

/-- The match and mask values of a row (30_encoding.md R95). -/
def OpcodeRow.matchAndMask (row : OpcodeRow) : Word × Word := (row.matchWord, row.format.mask)

/-- Settles O15: the match and mask values of R95 are those of the model's opcode map, by which a word decodes. -/
theorem legalWordsMatchTheTable : Obligations.LegalWordsMatchTheTable := by
  intro w
  have hrows : (∃ row ∈ opcodeTable, w &&& row.format.mask = row.matchWord) ↔
      ∃ row ∈ opcodeTable.map OpcodeRow.matchAndMask, w &&& row.2 = row.1 := by
    simp only [List.mem_map, exists_exists_and_eq_and, OpcodeRow.matchAndMask]
  rw [decodes_iff, hrows, opField, rdField, rs3Field, regField_eq_regField_iff]
  rfl

end Sys2Proof

/-! ## What every event and every step keeps, and which events have a step (10_state.md R38, R40; 20_memory.md R61, R71,
R73) -/

namespace Sys2Proof.Machine

section Coherence

variable {s t : State}

/-- A reset leaves STATUS coherent (10_state.md R46). -/
theorem statusCoherent_resetBlock (s : State) : s.resetBlock.statusCoherent :=
  ⟨(by decide : 0#4 ≤ 4#4), iff_of_false (fun h => h rfl) Bool.false_ne_true, nofun⟩

/-- Every error that is raised has a nonzero code and sets FAULT (60_exceptions.md R231, R232). -/
theorem statusCoherent_raise (s : State) (c : ErrorCause) : (s.raise c).statusCoherent :=
  ⟨c.code_le_four, iff_of_true c.code_ne_zero rfl, fun _ => rfl⟩

/-- A drop in the fault state keeps STATUS coherent (60_exceptions.md R236). -/
theorem statusCoherent_dropCommand (h : s.statusCoherent) (hf : s.fault = true) :
    s.dropCommand.statusCoherent := by
  obtain ⟨hle, herr, -⟩ := h
  exact ⟨hle, herr, fun _ => hf⟩

theorem statusCoherent_of_sameStatus (h : s.statusCoherent) (hsame : s.sameStatus t) : t.statusCoherent := by
  obtain ⟨herr, hfault, hdrop⟩ := hsame
  rwa [State.statusCoherent, herr, hfault, hdrop]

theorem runEvent_statusCoherent {e : BusEvent} (h : s.statusCoherent) (hrun : runEvent e s = .next t) :
    t.statusCoherent := by
  rcases runEvent_status_cases hrun with ⟨-, rfl⟩ | ⟨hf, -, rfl⟩ | ⟨-, -, c, rfl⟩ | ⟨-, -, hsame⟩
  · exact statusCoherent_resetBlock s
  · exact statusCoherent_dropCommand h hf
  · exact statusCoherent_raise s c
  · exact statusCoherent_of_sameStatus h hsame

/-- Settles O27, by the four things a bus event can do to STATUS. -/
theorem statusStaysCoherent : Obligations.StatusStaysCoherent := by
  intro s t hs h
  rcases step_cases h with ⟨-, rfl⟩ | ⟨e, rest, -, hrun⟩
  · exact hs
  · exact runEvent_statusCoherent (s := { s with pending := rest }) hs hrun

/-- Settles O28: the state after reset is what a reset leaves. -/
theorem statusIsCoherentAtReset : Obligations.StatusIsCoherentAtReset := statusCoherent_resetBlock State.reset

end Coherence

/-- The admitted addresses are BASE plus an aligned offset of the window (20_memory.md R61). -/
theorem admitsAddress_iff {s : State} {addr : Nat} :
    s.admitsAddress addr ↔ ∃ off, off < 256 ∧ off % 4 = 0 ∧ addr = s.base + off := by
  constructor
  · rintro ⟨hbase, hend, h4⟩
    exact ⟨addr - s.base, by simp only [Config.windowSize] at hend; omega, h4, by omega⟩
  · rintro ⟨off, hoff, h4, rfl⟩
    exact ⟨by omega, by simpa [Config.windowSize] using hoff, by simpa using h4⟩

/-- A write at an aligned offset always answers a next state, in which BASE, the events to come and the words read are
as they were. -/
theorem hostWrite_sameBus {off : Nat} (h4 : off % 4 = 0) (v : Word) (s : State) :
    ∃ t, hostWrite off v s = .next t ∧ s.sameBus t := by
  rcases hostWrite_cases h4 v s with ⟨-, hw⟩ | ⟨-, -, hw⟩ | ⟨-, hw⟩ | ⟨n, -, hw⟩ | ⟨n, -, hw⟩ | ⟨-, hw⟩
  case inl =>
    rw [hw]
    rcases execWord_status v s with ⟨-, hx⟩ | ⟨-, c, hx⟩ | ⟨-, t, hx, -, hbus⟩
    · exact ⟨_, hx, rfl, rfl, rfl⟩
    · exact ⟨_, hx, rfl, rfl, rfl⟩
    · exact ⟨t, hx, hbus⟩
  all_goals exact ⟨_, hw, rfl, rfl, rfl⟩

/-- An admitted write acts at its offset (20_memory.md R61). -/
theorem runEvent_write {s : State} {off : Nat} (h : off < 256) (h4 : off % 4 = 0) (v : Word) :
    runEvent (.write (s.base + off) .word v) s = hostWrite off v s :=
  admitAccess_of_admitted h h4 fun off => hostWrite off v s

/-- An admitted read returns the word of its offset (20_memory.md R61). -/
theorem runEvent_read {s : State} {off : Nat} (h : off < 256) (h4 : off % 4 = 0) :
    runEvent (.read (s.base + off) .word) s = .next { s with replies := s.replies ++ [hostRead off s] } :=
  admitAccess_of_admitted h h4 fun off => .next { s with replies := s.replies ++ [hostRead off s] }

/-- An event that the host may make answers a next state and leaves BASE and the events to come (20_memory.md R61). -/
theorem runEvent_of_admitsEvent {s : State} {e : BusEvent} (h : s.admitsEvent e) :
    ∃ t, runEvent e s = .next t ∧ t.basePage = s.basePage ∧ t.pending = s.pending := by
  cases e with
  | hardReset => exact ⟨_, rfl, rfl, rfl⟩
  | read addr size =>
    obtain ⟨rfl, haddr⟩ := h
    obtain ⟨off, hoff, h4, rfl⟩ := admitsAddress_iff.mp haddr
    exact ⟨_, runEvent_read hoff h4, rfl, rfl⟩
  | write addr size v =>
    obtain ⟨rfl, haddr⟩ := h
    obtain ⟨off, hoff, h4, rfl⟩ := admitsAddress_iff.mp haddr
    obtain ⟨t, ht, hpage, hpending, -⟩ := hostWrite_sameBus h4 v s
    exact ⟨t, (runEvent_write hoff h4 v).trans ht, hpage, hpending⟩

/-- Only an event that the host or the platform may make has a step (20_memory.md R71). -/
theorem admitsEvent_of_runEvent {s t : State} {e : BusEvent} (h : runEvent e s = .next t) : s.admitsEvent e := by
  rcases runEvent_cases h with ⟨rfl, -⟩ | ⟨off, hoff, h4, rfl, -⟩ | ⟨off, v, hoff, h4, rfl, -⟩
  · trivial
  · exact ⟨rfl, admitsAddress_iff.mpr ⟨off, hoff, h4, rfl⟩⟩
  · exact ⟨rfl, admitsAddress_iff.mpr ⟨off, hoff, h4, rfl⟩⟩

/-- Settles O9: an event with a step is one that the host may make. -/
theorem otherAccessesHaveNoStep : Obligations.OtherAccessesHaveNoStep :=
  fun _ _ hno _ h => hno (admitsEvent_of_runEvent h)

/-- Which events the host may make depends on BASE alone (20_memory.md R60, R61). -/
theorem admitsEvent_congr {s t : State} (h : t.basePage = s.basePage) {e : BusEvent} (he : s.admitsEvent e) :
    t.admitsEvent e := by
  have hbase : t.base = s.base := congrArg (Config.windowSize * ·) h
  cases e with
  | hardReset => trivial
  | read addr size | write addr size v => simpa only [State.admitsEvent, State.admitsAddress, hbase] using he

/-- Settles O10: the earliest event has a step, which leaves BASE and the later events. -/
theorem obedientHostNeverStops : Obligations.ObedientHostNeverStops := by
  intro s hs
  cases hp : s.pending with
  | nil => exact ⟨s, step_idle hp, hs, rfl⟩
  | cons e rest =>
    have hhead : s.admitsEvent e := hs e (by simp [hp])
    obtain ⟨t, ht, hpage, hpending⟩ :=
      runEvent_of_admitsEvent (s := { s with pending := rest }) (admitsEvent_congr rfl hhead)
    refine ⟨t, (step_event hp).trans ht, ?_, hpage⟩
    intro e' he'
    have hlater : e' ∈ s.pending := by
      rw [hpending] at he'
      simp [hp, he']
    exact admitsEvent_congr hpage (hs e' hlater)

/-- Settles O12, by the equations of `step` and of the admitted accesses. -/
theorem stepRunsEarliestEvent : Obligations.StepRunsEarliestEvent :=
  ⟨fun _ => step_idle, fun _ _ _ => step_event, fun _ _ hoff h4 =>
    ⟨⟨_, runEvent_read hoff h4, ⟨rfl, rfl, rfl, rfl, rfl, rfl⟩, rfl, rfl, rfl⟩, runEvent_write hoff h4⟩⟩

/-! The registers CTRL, CMD and ACC (20_memory.md R63, R65, R67). -/

/-- A reset zeroes every field of the block and leaves the fields around it (10_state.md R46). -/
theorem resetBlock_blockIsZero (s : State) : s.resetBlock.blockIsZero := by
  refine ⟨s.reg_resetBlock, rfl, ?_, rfl, rfl, rfl⟩
  intro j
  simp

/-- A write to CTRL with bit 0 set resets the block (20_memory.md R63). -/
theorem hostWrite_ctrl_set {v : Word} (h : v.getLsbD 0 = true) (s : State) :
    hostWrite 0x00 v s = .next s.resetBlock := if_pos h

/-- A write to CTRL with bit 0 clear has no effect (20_memory.md R63). -/
theorem hostWrite_ctrl_clear {v : Word} (h : v.getLsbD 0 = false) (s : State) : hostWrite 0x00 v s = .next s :=
  if_neg (h ▸ Bool.false_ne_true)

/-- A write to ACC has no effect (20_memory.md R67). -/
theorem hostWrite_acc (v : Word) (s : State) : hostWrite 0x10 v s = .next s := rfl

/-- Settles O1: both kinds of reset are the reset of the block. -/
theorem resetLeavesEveryFieldZero : Obligations.ResetLeavesEveryFieldZero :=
  ⟨resetBlock_blockIsZero State.reset, fun s => ⟨_, rfl, resetBlock_blockIsZero s, rfl, rfl, rfl⟩,
    fun s _ hv => ⟨_, hostWrite_ctrl_set hv s, resetBlock_blockIsZero s, rfl, rfl, rfl⟩⟩

/-- Settles O2, by bit 0 of the word written. -/
theorem ctrlAccess : Obligations.CtrlAccess := fun s =>
  ⟨fun _ hv => ⟨_, hostWrite_ctrl_set hv s, resetBlock_blockIsZero s, rfl, rfl, rfl⟩,
    fun _ hv => hostWrite_ctrl_clear hv s, rfl⟩

/-- Settles O4: CMD is the register at offset 0x08. -/
theorem cmdAccess : Obligations.CmdAccess := fun s => ⟨fun w => hostWrite_cmd w s, rfl⟩

/-- Settles O6: ACC is the register at offset 0x10. -/
theorem accAccess : Obligations.AccAccess := fun s => ⟨rfl, fun v => hostWrite_acc v s⟩

/-! Which accesses are idempotent (20_memory.md R73). -/

/-- The later of two writes to a register counts (00_scope.md R13). -/
theorem setReg_setReg (s : State) (r : Reg) (u v : Poly) : (s.setReg r u).setReg r v = s.setReg r v := by
  simp [State.setReg]

theorem withLow_withLow (x : Poly) (v : Word) : withLow (withLow x v) v = withLow x v := by
  rw [withLow, withLow, BitVec.extractLsb'_append_eq_left]

theorem withHigh_withHigh (x : Poly) (v : Word) : withHigh (withHigh x v) v = withHigh x v := by
  rw [withHigh, withHigh, BitVec.extractLsb'_append_eq_right]

/-- A write but one to CMD, made again on what it has left, changes nothing. -/
theorem hostWrite_idempotent {s t : State} {off : Nat} {v : Word} (h4 : off % 4 = 0) (hne : off ≠ 0x08)
    (h : hostWrite off v s = .next t) : hostWrite off v t = .next t := by
  rcases windowReg_cases h4 with
    ⟨rfl, -⟩ | ⟨rfl, -⟩ | ⟨h8, -⟩ | ⟨rfl, -⟩ | ⟨rfl, -⟩ | ⟨n, rfl, -⟩ | ⟨n, rfl, -⟩ | ⟨-, hr⟩
  · cases hv : v.getLsbD 0 with
    | true =>
      cases (hostWrite_ctrl_set hv s).symm.trans h
      exact hostWrite_ctrl_set hv _
    | false => exact hostWrite_ctrl_clear hv t
  · exact hostWrite_status t v
  · exact absurd h8 hne
  · cases h
    exact hostWrite_win _ v
  · exact hostWrite_acc v t
  · cases (hostWrite_polyLo s n v).symm.trans h
    rw [hostWrite_polyLo, setReg_setReg, State.reg_setReg_same, withLow_withLow]
  · cases (hostWrite_polyHi s n v).symm.trans h
    rw [hostWrite_polyHi, setReg_setReg, State.reg_setReg_same, withHigh_withHigh]
  · exact hostWrite_reserved t hr v

/-- A write of a legal command word to CMD outside the fault state runs the command. -/
theorem hostWrite_cmd_encode {s : State} {i : Instr} (hf : s.fault = false) (hwf : i.wellFormed = true) :
    hostWrite 0x08 (encode i) s = exec i s :=
  (hostWrite_cmd _ s).trans (execWord_of_decode hf (decodeOfEncode i hwf))

/-- Outside the fault state PADD writes the sum of its sources to its destination (40_data.md R123). -/
theorem exec_padd {s : State} (hf : s.fault = false) (rd rs1 rs2 : Reg) :
    exec (.padd rd rs1 rs2) s = .next (s.setReg rd (s.reg rs1 ^^^ s.reg rs2)) := runCommand_ok hf _

/-- The reset state with 1 in P1. -/
def oneInP1 : State := State.reset.setReg 1 1#33

/-- Settles O11; the command that is not idempotent adds 1 to P0. -/
theorem onlyCommandsAreNotIdempotent : Obligations.OnlyCommandsAreNotIdempotent := by
  refine ⟨fun _ _ _ _ => runEvent_read_sameBlock, ?_, ?_⟩
  · intro s t u off v _ h4 hne hfirst hsecond
    cases (hostWrite_idempotent h4 hne hfirst).symm.trans hsecond
    rfl
  · have hadd {s : State} (hf : s.fault = false) :
        hostWrite 0x08 (encode (.padd 0 0 1)) s = .next (s.setReg 0 (s.reg 0 ^^^ s.reg 1)) :=
      (hostWrite_cmd_encode hf rfl).trans (exec_padd hf 0 0 1)
    refine ⟨oneInP1, _, _, _, hadd rfl, hadd rfl, ?_⟩
    rintro ⟨hp, -⟩
    exact absurd hp (by decide)

/-! Executing a command word (60_exceptions.md R230, R236). -/

/-- Outside the fault state an illegal word raises IllegalCommand (30_encoding.md R98). -/
theorem execWord_of_illegal {s : State} {w : Word} (hf : s.fault = false) (h : ∀ i, decode w ≠ .ok i) :
    execWord w s = .next (s.raise .illegalCommand) := by
  rcases execWord_cases w s with ⟨hf', -⟩ | ⟨-, -, hx⟩ | ⟨-, i, hd, -⟩
  · exact absurd hf' (by simp [hf])
  · exact hx
  · exact absurd hd (h i)

/-- In the fault state a word is dropped (60_exceptions.md R236). -/
theorem execWord_of_fault {s : State} (hf : s.fault = true) (w : Word) : execWord w s = .next s.dropCommand :=
  if_pos hf

/-- In the fault state a command is dropped (60_exceptions.md R236). -/
theorem exec_of_fault {s : State} (hf : s.fault = true) (i : Instr) : exec i s = .next s.dropCommand := by
  obtain ⟨effect, he, -⟩ := exec_eq_runCommand i s
  rw [he, runCommand_of_fault hf]

/-- In every state a word that decodes runs its command (60_exceptions.md R230; log entry 7). -/
theorem execWord_eq_exec {s : State} {w : Word} {i : Instr} (h : decode w = .ok i) : execWord w s = exec i s := by
  cases hf : s.fault with
  | true => rw [execWord_of_fault hf, exec_of_fault hf]
  | false => exact execWord_of_decode hf h

/-- Settles O19: CMD is the register at offset 0x08. -/
theorem stepRunsDecodedCommand : Obligations.StepRunsDecodedCommand := by
  intro s rest w i hp hd
  calc step s
    _ = hostWrite 0x08 w { s with pending := rest } := step_write hp (by decide) (by decide)
    _ = execWord w { s with pending := rest } := hostWrite_cmd w _
    _ = exec i { s with pending := rest } := execWord_eq_exec hd

/-- Settles O20: an illegal word takes the error IllegalCommand, whose code is 1. -/
theorem illegalWordRaisesCodeOne : Obligations.IllegalWordRaisesCodeOne := fun s _ hf h =>
  ⟨_, execWord_of_illegal hf h, raisesOnly_raise s .illegalCommand⟩

/-- Settles O21: only DROP differs in the dropped state. -/
theorem commandInFaultStateIsDropped : Obligations.CommandInFaultStateIsDropped := fun _ w hf =>
  ⟨_, execWord_of_fault hf w, rfl, rfl, rfl, rfl, rfl, hf, rfl, rfl, rfl⟩

end Sys2Proof.Machine

/-! ## What changes ACC, WIN and the polynomial registers (10_state.md R32, R34, R36) -/

namespace Sys2Proof.Machine

/-- The commands that write ACC (10_state.md R34). -/
def writesAcc (i : Instr) : Prop :=
  i = .crcinit ∨ (∃ b, i = .crcbi b) ∨ (∃ r, i = .crcw r) ∨ ∃ r, i = .crcset r

/-- The commands that write WIN (10_state.md R36). -/
def writesWin (i : Instr) : Prop := (∃ r, i = .apply r) ∨ ∃ r, i = .winld r

/-- From `s` to `t`, ACC, WIN and each register have changed only if the command `i` writes them. -/
def changesOnlyTargets (i : Instr) (s t : State) : Prop :=
  (t.acc ≠ s.acc → writesAcc i) ∧ (t.win ≠ s.win → writesWin i) ∧ ∀ r, t.reg r ≠ s.reg r → r ∈ destinations i

section Targets

variable {i : Instr} {s t : State}

theorem changesOnlyTargets_of_same (hacc : t.acc = s.acc) (hwin : t.win = s.win) (hreg : ∀ r, t.reg r = s.reg r) :
    changesOnlyTargets i s t :=
  ⟨fun h => absurd hacc h, fun h => absurd hwin h, fun r h => absurd (hreg r) h⟩

theorem changesOnlyTargets_refl (i : Instr) (s : State) : changesOnlyTargets i s s :=
  changesOnlyTargets_of_same rfl rfl fun _ => rfl

theorem changesOnlyTargets_setReg {rd : Reg} (h : changesOnlyTargets i s t) (hrd : rd ∈ destinations i) (v : Poly) :
    changesOnlyTargets i s (t.setReg rd v) := by
  obtain ⟨hacc, hwin, hreg⟩ := h
  refine ⟨hacc, hwin, fun r hr => ?_⟩
  by_cases heq : r = rd
  · exact heq ▸ hrd
  · exact hreg r (by rwa [State.reg_setReg_other t v heq] at hr)

theorem changesOnlyTargets_setAcc (h : writesAcc i) (v : Word) : changesOnlyTargets i s (s.setAcc v) :=
  ⟨fun _ => h, fun hne => absurd rfl hne, fun _ hne => absurd rfl hne⟩

theorem changesOnlyTargets_setWin (h : writesWin i) (w : Vector Byte 4) : changesOnlyTargets i s (s.setWin w) :=
  ⟨fun hne => absurd rfl hne, fun _ => h, fun _ hne => absurd rfl hne⟩

/-- The writes of the pseudocode `effect`, where it completes, are those of the command `i`. -/
def writesOnlyTargets (i : Instr) (s : State) (effect : Except ErrorCause State) : Prop :=
  ∀ t, effect = .ok t → changesOnlyTargets i s t

theorem writesOnlyTargets_ok (h : changesOnlyTargets i s t) : writesOnlyTargets i s (.ok t) := by
  rintro _ ⟨⟩
  exact h

/-- A checked computation before the writes changes nothing. -/
theorem writesOnlyTargets_bind {α : Type} (x : Except ErrorCause α) {k : α → Except ErrorCause State}
    (h : ∀ a, writesOnlyTargets i s (k a)) : writesOnlyTargets i s (x >>= k) := by
  cases x with
  | error e => exact nofun
  | ok a => exact h a

/-- One register write of a command's destination. -/
theorem writesOnlyTargets_setReg {rd : Reg} (hrd : rd ∈ destinations i) (v : Poly) :
    writesOnlyTargets i s (.ok (s.setReg rd v)) :=
  writesOnlyTargets_ok (changesOnlyTargets_setReg (changesOnlyTargets_refl i s) hrd v)

end Targets

/-- Every command is one `runCommand` whose pseudocode writes the command's own targets (10_state.md R32, R34, R36). -/
theorem exec_writesOnlyTargets (i : Instr) (s : State) :
    ∃ effect, exec i s = runCommand s effect ∧ writesOnlyTargets i s effect := by
  cases i
  case nop => exact ⟨_, rfl, writesOnlyTargets_ok (changesOnlyTargets_refl _ s)⟩
  case ldi | ldg | padd | deg | crcrd | crcraw | winrd =>
    exact ⟨_, rfl, writesOnlyTargets_setReg (by simp [destinations]) _⟩
  case powm | rev32 =>
    exact ⟨_, rfl, writesOnlyTargets_bind _ fun _ => writesOnlyTargets_setReg (by simp [destinations]) _⟩
  case mulm | recip =>
    exact ⟨_, rfl, writesOnlyTargets_bind _ fun _ => writesOnlyTargets_bind _ fun _ =>
      writesOnlyTargets_setReg (by simp [destinations]) _⟩
  case delta =>
    exact ⟨_, rfl, writesOnlyTargets_bind _ fun _ => writesOnlyTargets_bind _ fun _ =>
      writesOnlyTargets_bind _ fun _ => writesOnlyTargets_setReg (by simp [destinations]) _⟩
  case divr rd rd2 rs1 rs2 =>
    refine ⟨_, rfl, ?_⟩
    split
    · exact nofun
    · exact writesOnlyTargets_bind _ fun _ => writesOnlyTargets_ok (changesOnlyTargets_setReg
        (changesOnlyTargets_setReg (changesOnlyTargets_refl _ s) (by simp [destinations]) _)
        (by simp [destinations]) _)
  case crcinit | crcbi =>
    exact ⟨_, rfl, writesOnlyTargets_ok (changesOnlyTargets_setAcc (by simp [writesAcc]) _)⟩
  case crcw | crcset =>
    exact ⟨_, rfl, writesOnlyTargets_bind _ fun _ =>
      writesOnlyTargets_ok (changesOnlyTargets_setAcc (by simp [writesAcc]) _)⟩
  case apply | winld =>
    exact ⟨_, rfl, writesOnlyTargets_bind _ fun _ =>
      writesOnlyTargets_ok (changesOnlyTargets_setWin (by simp [writesWin]) _)⟩

theorem exec_changesOnlyTargets {i : Instr} {s t : State} (h : exec i s = .next t) : changesOnlyTargets i s t := by
  obtain ⟨effect, he, hwrites⟩ := exec_writesOnlyTargets i s
  rw [he] at h
  rcases runCommand_cases s effect with ⟨-, hx⟩ | ⟨-, u, hu, hx⟩ | ⟨-, c, -, hx⟩
  all_goals cases hx.symm.trans h
  · exact changesOnlyTargets_of_same rfl rfl fun _ => rfl
  · exact hwrites _ hu
  · exact changesOnlyTargets_of_same rfl rfl fun _ => rfl

/-- The fields that only commands, host writes and resets change: the registers, ACC and WIN. -/
abbrev State.sameData (s t : State) : Prop := (∀ r, t.reg r = s.reg r) ∧ t.acc = s.acc ∧ t.win = s.win

/-- A command word changes data only as the command it decodes to, outside the fault state (60_exceptions.md R230). -/
theorem execWord_data {w : Word} {s t : State} (h : execWord w s = .next t) :
    s.sameData t ∨ (s.fault = false ∧ ∃ i, decode w = .ok i ∧ changesOnlyTargets i s t) := by
  rcases execWord_cases w s with ⟨-, hx⟩ | ⟨-, -, hx⟩ | ⟨hf, i, hd, hx⟩
  · cases hx.symm.trans h
    exact .inl ⟨fun _ => rfl, rfl, rfl⟩
  · cases hx.symm.trans h
    exact .inl ⟨fun _ => rfl, rfl, rfl⟩
  · exact .inr ⟨hf, i, hd, exec_changesOnlyTargets (hx.symm.trans h)⟩

/-- Everything a bus event can do to the registers, ACC and WIN: reset them, write WIN, write one half of a register,
run a command outside the fault state, or nothing. -/
theorem runEvent_data_cases {s t : State} {e : BusEvent} (h : runEvent e s = .next t) :
    s.isResetEvent e ∨
    (∃ v, e = .write (s.base + 0x0C) .word v ∧ t.acc = s.acc ∧ ∀ r, t.reg r = s.reg r) ∨
    (∃ (n : Reg) (v : Word),
      (e = .write (s.base + (0x20 + 8 * n.val)) .word v ∨ e = .write (s.base + (0x24 + 8 * n.val)) .word v) ∧
        t.acc = s.acc ∧ t.win = s.win ∧ ∀ r, r ≠ n → t.reg r = s.reg r) ∨
    (∃ w i, e = .write (s.base + 0x08) .word w ∧ s.fault = false ∧ decode w = .ok i ∧ changesOnlyTargets i s t) ∨
    s.sameData t := by
  have hsame : s.sameData s := ⟨fun _ => rfl, rfl, rfl⟩
  rcases runEvent_cases h with ⟨rfl, -⟩ | ⟨off, -, -, rfl, rfl⟩ | ⟨off, v, -, h4, rfl, hw⟩
  · exact .inl trivial
  · exact .inr (.inr (.inr (.inr hsame)))
  rcases hostWrite_cases h4 v s with
    ⟨rfl, hx⟩ | ⟨h0, hv, -⟩ | ⟨rfl, hx⟩ | ⟨n, rfl, hx⟩ | ⟨n, rfl, hx⟩ | ⟨-, hx⟩
  · rcases execWord_data (hx.symm.trans hw) with hdata | ⟨hf, i, hd, hchanges⟩
    · exact .inr (.inr (.inr (.inr hdata)))
    · exact .inr (.inr (.inr (.inl ⟨v, i, rfl, hf, hd, hchanges⟩)))
  · exact .inl (isResetEvent_write_iff.mpr ⟨h0, hv⟩)
  all_goals cases hx.symm.trans hw
  · exact .inr (.inl ⟨v, rfl, rfl, fun _ => rfl⟩)
  · exact .inr (.inr (.inl ⟨n, v, .inl rfl, rfl, rfl, fun _ hr => s.reg_setReg_other _ hr⟩))
  · exact .inr (.inr (.inl ⟨n, v, .inr rfl, rfl, rfl, fun _ hr => s.reg_setReg_other _ hr⟩))
  · exact .inr (.inr (.inr (.inr hsame)))

/-- Settles O29: of the things a bus event can do to data, a reset and the CRC commands alone change ACC. -/
theorem accChangesOnlyByCrcCommands : Obligations.AccChangesOnlyByCrcCommands := by
  intro s t e h hacc
  rcases runEvent_data_cases h with
    hr | ⟨v, -, hsame, -⟩ | ⟨n, v, -, hsame, -⟩ | ⟨w, i, he, hf, hd, hchanges, -⟩ | ⟨-, hsame, -⟩
  case inr.inr.inr.inl =>
    refine .inr ⟨w, he, hf, ?_⟩
    rcases hchanges hacc with rfl | ⟨b, rfl⟩ | ⟨r, rfl⟩ | ⟨r, rfl⟩
    · exact .inl hd
    · exact .inr (.inl ⟨b, hd⟩)
    · exact .inr (.inr (.inl ⟨r, hd⟩))
    · exact .inr (.inr (.inr ⟨r, hd⟩))
  case inl => exact .inl hr
  all_goals exact absurd hsame hacc

/-- Settles O30: of the things a bus event can do to data, a reset, the WIN write, APPLY and WINLD alone change WIN. -/
theorem winChangesOnlyByWindowCommands : Obligations.WinChangesOnlyByWindowCommands := by
  intro s t e h hwin
  rcases runEvent_data_cases h with
    hr | ⟨v, he, -⟩ | ⟨n, v, -, -, hsame, -⟩ | ⟨w, i, he, hf, hd, -, hchanges, -⟩ | ⟨-, -, hsame⟩
  case inr.inr.inr.inl =>
    refine .inr (.inr ⟨w, he, hf, ?_⟩)
    rcases hchanges hwin with ⟨r, rfl⟩ | ⟨r, rfl⟩
    · exact .inl ⟨r, hd⟩
    · exact .inr ⟨r, hd⟩
  case inl => exact .inl hr
  case inr.inl => exact .inr (.inl ⟨v, he⟩)
  all_goals exact absurd hsame hwin

/-- Settles O31: of the things a bus event can do to data, a reset, a write to the register's own halves and a command
with the register as destination alone change it. -/
theorem registerChangesOnlyAsDestination : Obligations.RegisterChangesOnlyAsDestination := by
  intro s t e r h hreg
  rcases runEvent_data_cases h with
    hr | ⟨v, -, -, hsame⟩ | ⟨n, v, he, -, -, hothers⟩ | ⟨w, i, he, hf, hd, -, -, hchanges⟩ | ⟨hsame, -, -⟩
  · exact .inl hr
  · exact absurd (hsame r) hreg
  · have hn : r = n := not_not.mp fun hne => hreg (hothers r hne)
    exact .inr (.inl ⟨v, hn ▸ he⟩)
  · exact .inr (.inr ⟨w, i, he, hf, hd, hchanges r hreg⟩)
  · exact absurd (hsame r) hreg

end Sys2Proof.Machine

/-! ## Numbers as polynomials over GF(2): XOR is the sum, the carry-less product the product (00_scope.md R12) -/

namespace Sys2Proof.Machine

open Polynomial

/-- The polynomial over GF(2) that a number stands for: bit `i` is the coefficient of `X ^ i` (00_scope.md R12). -/
noncomputable def poly (a : Nat) : (ZMod 2)[X] :=
  ∑ i ∈ Finset.range (bitLen a), if a.testBit i then X ^ i else 0

theorem testBit_of_bitLen_le {a i : Nat} (h : bitLen a ≤ i) : a.testBit i = false :=
  Nat.testBit_lt_two_pow (bitLen_le_iff.mp h)

theorem poly_coeff (a i : Nat) : (poly a).coeff i = if a.testBit i then 1 else 0 := by
  have hterm (j : Nat) : (if a.testBit j then X ^ j else 0 : (ZMod 2)[X]).coeff i =
      if i = j then (if a.testBit i then 1 else 0) else 0 := by
    split <;> split <;> simp_all [coeff_X_pow]
  rw [poly, finsetSum_coeff, Finset.sum_congr rfl fun j _ => hterm j, Finset.sum_ite_eq]
  split
  · rfl
  · rename_i h
    rw [testBit_of_bitLen_le (by simpa using h)]
    rfl

theorem poly_injective : Function.Injective poly := by
  intro a b h
  apply Nat.eq_of_testBit_eq
  intro i
  have hcoeff := congrArg (fun p => p.coeff i) h
  simp only [poly_coeff] at hcoeff
  cases ha : a.testBit i <;> cases hb : b.testBit i <;> simp_all

@[simp] theorem poly_zero : poly 0 = 0 := by simp [poly, bitLen_zero]

@[simp] theorem poly_one : poly 1 = 1 := by
  ext i
  rw [poly_coeff, coeff_one]
  cases i <;> simp [Nat.testBit_succ]

theorem poly_eq_zero_iff {a : Nat} : poly a = 0 ↔ a = 0 := by
  rw [← poly_zero, poly_injective.eq_iff]

theorem poly_eq_one_iff {a : Nat} : poly a = 1 ↔ a = 1 := by
  rw [← poly_one, poly_injective.eq_iff]

theorem poly_xor (a b : Nat) : poly (a ^^^ b) = poly a + poly b := by
  ext i
  rw [coeff_add, poly_coeff, poly_coeff, poly_coeff, Nat.testBit_xor]
  cases a.testBit i <;> cases b.testBit i <;> decide

theorem poly_shiftLeft (a n : Nat) : poly (a <<< n) = poly a * X ^ n := by
  ext i
  rw [coeff_mul_X_pow', poly_coeff, Nat.testBit_shiftLeft]
  by_cases h : n ≤ i
  · simp [h, poly_coeff]
  · simp [h]

theorem poly_clmulBits (a b n : Nat) :
    poly (clmulBits a b n) = poly a * ∑ i ∈ Finset.range n, if b.testBit i then X ^ i else 0 := by
  induction n with
  | zero => simp [clmulBits]
  | succ n ih =>
    rw [clmulBits, poly_xor, ih, Finset.sum_range_succ, mul_add]
    split
    · rw [poly_shiftLeft]
    · simp

/-- The carry-less product is the product of polynomials (00_scope.md R12). -/
theorem poly_clmul (a b : Nat) : poly (clmul a b) = poly a * poly b := poly_clmulBits a b (bitLen b)

/-- A number has at most `n` bits exactly when its polynomial has degree below `n`. -/
theorem degree_poly_lt_iff {a n : Nat} : (poly a).degree < n ↔ a < 2 ^ n := by
  rw [degree_lt_iff_coeff_zero]
  constructor
  · intro h
    apply Nat.lt_pow_two_of_testBit
    intro i hi
    simpa [poly_coeff] using h i hi
  · intro h i hi
    rw [poly_coeff, Nat.testBit_lt_two_pow (Nat.lt_of_lt_of_le h (Nat.pow_le_pow_right (by decide) hi))]
    rfl

theorem lt_two_pow_deg_succ (a : Nat) : a < 2 ^ (deg a + 1) := Nat.lt_log2_self

theorem degree_poly_le (a : Nat) : (poly a).degree ≤ deg a := by
  rw [degree_le_iff_coeff_zero]
  intro i hi
  have hdeg : deg a + 1 ≤ i := by exact_mod_cast hi
  have hlt : a < 2 ^ i := Nat.lt_of_lt_of_le (lt_two_pow_deg_succ a) (Nat.pow_le_pow_right (by decide) hdeg)
  rw [poly_coeff, Nat.testBit_lt_two_pow hlt]
  rfl

theorem poly_coeff_deg {a : Nat} (h : a ≠ 0) : (poly a).coeff (deg a) = 1 := by
  rw [poly_coeff, show a.testBit (deg a) = true from Nat.testBit_log2 h]
  rfl

theorem monic_poly {a : Nat} (h : a ≠ 0) : (poly a).Monic :=
  monic_of_degree_le (deg a) (degree_poly_le a) (poly_coeff_deg h)

/-- The degree of 41_gf2_arith.md R140 is the polynomial's. -/
theorem degree_poly {a : Nat} (h : a ≠ 0) : (poly a).degree = deg a :=
  le_antisymm (degree_poly_le a) (le_degree_of_ne_zero (poly_coeff_deg h ▸ one_ne_zero))

theorem deg_lt_iff {a n : Nat} (h : a ≠ 0) : deg a < n ↔ a < 2 ^ n := Nat.log2_lt h

/-- A remainder is 0 or of smaller degree exactly when its polynomial's degree is below the divisor's. -/
theorem degree_poly_lt_degree_poly_iff {r b : Nat} (hb : b ≠ 0) :
    (poly r).degree < (poly b).degree ↔ r = 0 ∨ deg r < deg b := by
  rw [degree_poly hb, degree_poly_lt_iff]
  by_cases hr : r = 0
  · simp [hr]
  · simp [hr, deg_lt_iff hr]

end Sys2Proof.Machine

/-! ## Long division (41_gf2_arith.md R141) -/

namespace Sys2Proof.Machine

open Polynomial

/-- XOR of the divisor, shifted to the dividend's top bit, clears that bit. -/
theorem xor_shiftLeft_lt {a b n : Nat} (hb : b ≠ 0) (ha : a < 2 ^ (n + 1 + deg b))
    (htop : a.testBit (n + deg b) = true) : a ^^^ b <<< n < 2 ^ (n + deg b) := by
  apply Nat.lt_pow_two_of_testBit
  intro i hi
  rw [Nat.testBit_xor, Nat.testBit_shiftLeft, decide_eq_true (show n ≤ i by omega), Bool.true_and]
  by_cases heq : i = n + deg b
  · rw [heq, htop, Nat.add_sub_cancel_left, show b.testBit (deg b) = true from Nat.testBit_log2 hb]
    rfl
  · have hbits : b.testBit (i - n) = false :=
      Nat.testBit_lt_two_pow ((deg_lt_iff hb).mp (show deg b < i - n by omega))
    rw [hbits, Nat.testBit_lt_two_pow (Nat.lt_of_lt_of_le ha (Nat.pow_le_pow_right (by decide) (by omega)))]
    rfl

/-- A dividend whose top bit is clear has one bit less. -/
theorem lt_of_testBit_top {a k : Nat} (ha : a < 2 ^ (k + 1)) (htop : a.testBit k = false) : a < 2 ^ k := by
  apply Nat.lt_pow_two_of_testBit
  intro i hi
  rcases Nat.eq_or_lt_of_le hi with rfl | hlt
  · exact htop
  · exact Nat.testBit_lt_two_pow (Nat.lt_of_lt_of_le ha (Nat.pow_le_pow_right (by decide) hlt))

/-- Setting a clear bit is an XOR. -/
theorem or_shiftLeft_eq_xor {q n : Nat} (h : q.testBit n = false) : q ||| 1 <<< n = q ^^^ 1 <<< n := by
  apply Nat.eq_of_testBit_eq
  intro i
  rw [Nat.testBit_or, Nat.testBit_xor, Nat.one_shiftLeft, Nat.testBit_two_pow]
  by_cases hi : n = i
  · simp [← hi, h]
  · simp [hi]

/-- One iteration of long division (41_gf2_arith.md R141). -/
theorem divremLoop_succ (b d n q a : Nat) : divremLoop b d (n + 1) q a =
    if a.testBit (n + d) then divremLoop b d n (q ||| 1 <<< n) (a ^^^ b <<< n) else divremLoop b d n q a := rfl

theorem longDivide_zero_left (b : Nat) : longDivide 0 b = (0, 0) := rfl

theorem longDivide_of_ne_zero {a : Nat} (h : a ≠ 0) (b : Nat) :
    longDivide a b = divremLoop b (deg b) (deg a + 1 - deg b) 0 a := if_neg h

/-- The loop of long division keeps `q * b + a` and ends with a remainder of fewer bits than the divisor. -/
theorem divremLoop_spec {b : Nat} (hb : b ≠ 0) (n : Nat) : ∀ q a : Nat, a < 2 ^ (n + deg b) →
    (∀ i < n, q.testBit i = false) →
    poly (divremLoop b (deg b) n q a).1 * poly b + poly (divremLoop b (deg b) n q a).2 = poly q * poly b + poly a ∧
      (divremLoop b (deg b) n q a).2 < 2 ^ deg b := by
  induction n with
  | zero =>
    intro q a ha _
    exact ⟨rfl, by rwa [Nat.zero_add] at ha⟩
  | succ n ih =>
    intro q a ha hq
    rw [divremLoop_succ]
    split
    case isTrue htop =>
      have hq' : ∀ i < n, (q ||| 1 <<< n).testBit i = false := by
        intro i hi
        rw [Nat.testBit_or, hq i (by omega), Nat.one_shiftLeft, Nat.testBit_two_pow_of_ne (by omega)]
        rfl
      obtain ⟨hsum, hlt⟩ := ih (q ||| 1 <<< n) (a ^^^ b <<< n) (xor_shiftLeft_lt hb ha htop) hq'
      refine ⟨hsum.trans ?_, hlt⟩
      have hcancel : poly b * X ^ n + poly b * X ^ n = 0 := CharTwo.add_self_eq_zero _
      rw [or_shiftLeft_eq_xor (hq n (by omega)), poly_xor, poly_xor, poly_shiftLeft, poly_shiftLeft, poly_one]
      linear_combination hcancel
    case isFalse htop =>
      exact ih q a (lt_of_testBit_top (by rwa [Nat.add_right_comm] at ha) (by simpa using htop))
        fun i hi => hq i (by omega)

/-- The quotient's bits are those that the iterations number. -/
theorem divremLoop_fst_lt {b d k n : Nat} (hn : n ≤ k) : ∀ q a : Nat, q < 2 ^ k → (divremLoop b d n q a).1 < 2 ^ k := by
  induction n with
  | zero => exact fun _ _ hq => hq
  | succ n ih =>
    intro q a hq
    rw [divremLoop_succ]
    split
    · refine ih (by omega) _ _ (Nat.or_lt_two_pow hq ?_)
      rw [Nat.one_shiftLeft]
      exact Nat.pow_lt_pow_right (by decide) hn
    · exact ih (by omega) _ _ hq

theorem longDivide_fst_lt (a b : Nat) : (longDivide a b).1 < 2 ^ (deg a + 1 - deg b) := by
  by_cases ha : a = 0
  · rw [ha, longDivide_zero_left]
    exact Nat.two_pow_pos _
  · rw [longDivide_of_ne_zero ha]
    exact divremLoop_fst_lt (Nat.le_refl _) _ _ (Nat.two_pow_pos _)

/-- Long division satisfies the equation of division with a remainder of fewer bits than the divisor. -/
theorem longDivide_spec (a : Nat) {b : Nat} (hb : b ≠ 0) :
    poly (longDivide a b).1 * poly b + poly (longDivide a b).2 = poly a ∧ (longDivide a b).2 < 2 ^ deg b := by
  by_cases ha : a = 0
  · simp [ha, longDivide_zero_left]
  · rw [longDivide_of_ne_zero ha]
    have hbits : a < 2 ^ (deg a + 1 - deg b + deg b) :=
      Nat.lt_of_lt_of_le (lt_two_pow_deg_succ a) (Nat.pow_le_pow_right (by decide) (by omega))
    simpa using divremLoop_spec hb (deg a + 1 - deg b) 0 a hbits (by simp)

/-- Numbers that satisfy the equation of division with a small remainder are quotient and remainder of the
polynomials. -/
theorem poly_divByMonic_modByMonic {a b q r : Nat} (hb : b ≠ 0) (heq : poly q * poly b + poly r = poly a)
    (hr : (poly r).degree < (poly b).degree) : poly a /ₘ poly b = poly q ∧ poly a %ₘ poly b = poly r :=
  div_modByMonic_unique _ _ (monic_poly hb) ⟨by rw [← heq]; ring, hr⟩

/-- Long division is the division of the polynomials (41_gf2_arith.md R141). -/
theorem poly_longDivide (a : Nat) {b : Nat} (hb : b ≠ 0) :
    poly a /ₘ poly b = poly (longDivide a b).1 ∧ poly a %ₘ poly b = poly (longDivide a b).2 := by
  obtain ⟨heq, hlt⟩ := longDivide_spec a hb
  exact poly_divByMonic_modByMonic hb heq (by rwa [degree_poly hb, degree_poly_lt_iff])

/-- The equation of division on numbers and on polynomials. -/
theorem clmul_xor_eq_iff {a b q r : Nat} : clmul q b ^^^ r = a ↔ poly q * poly b + poly r = poly a := by
  rw [← poly_injective.eq_iff, poly_xor, poly_clmul]

/-- Settles O32: `divrem` is division with remainder in GF(2)[X], where quotient and remainder are unique. -/
theorem divremIsPolynomialDivision : Obligations.DivremIsPolynomialDivision := by
  refine ⟨divrem_zero, fun a b hb => ?_⟩
  obtain ⟨heq, hlt⟩ := longDivide_spec a hb
  obtain ⟨hdiv, hmod⟩ := poly_longDivide a hb
  refine ⟨_, _, divrem_of_ne_zero hb a, clmul_xor_eq_iff.mpr heq, ?_, ?_, ?_⟩
  · rwa [← degree_poly_lt_degree_poly_iff hb, degree_poly hb, degree_poly_lt_iff]
  · intro q r heq' hr
    obtain ⟨hdiv', hmod'⟩ :=
      poly_divByMonic_modByMonic hb (clmul_xor_eq_iff.mp heq') ((degree_poly_lt_degree_poly_iff hb).mpr hr)
    exact ⟨poly_injective (hdiv'.symm.trans hdiv), poly_injective (hmod'.symm.trans hmod)⟩
  · intro ha hbound
    have hdeg {n : Nat} (hn : n < 2 ^ 33) : deg n ≤ 32 := by
      by_cases h0 : n = 0
      · simp [h0, deg]
      · exact Nat.le_of_lt_succ ((deg_lt_iff h0).mpr hn)
    exact ⟨Nat.lt_of_lt_of_le (longDivide_fst_lt a b) (Nat.pow_le_pow_right (by decide) (by have := hdeg ha; omega)),
      Nat.lt_of_lt_of_le hlt (Nat.pow_le_pow_right (by decide) (by have := hdeg hbound; omega))⟩

end Sys2Proof.Machine

/-! ## Arithmetic modulo G is arithmetic in the quotient ring GF(2)[X] / (G) (41_gf2_arith.md R142 to R144) -/

namespace Sys2Proof.Machine

open Polynomial

/-- The quotient ring GF(2)[X] / (G) (00_scope.md R12). -/
abbrev GRing : Type := AdjoinRoot (poly gNat)

/-- The residue class modulo G of the polynomial that a number stands for. -/
noncomputable def residue (a : Nat) : GRing := AdjoinRoot.mk (poly gNat) (poly a)

/-- The residue class of x. -/
noncomputable def xClass : GRing := AdjoinRoot.root (poly gNat)

@[simp] theorem residue_zero : residue 0 = 0 := by simp [residue]

@[simp] theorem residue_one : residue 1 = 1 := by simp [residue]

theorem residue_xor (a b : Nat) : residue (a ^^^ b) = residue a + residue b := by
  rw [residue, poly_xor, map_add]
  rfl

theorem residue_clmul (a b : Nat) : residue (clmul a b) = residue a * residue b := by
  rw [residue, poly_clmul, map_mul]
  rfl

theorem residue_shiftLeft (a n : Nat) : residue (a <<< n) = residue a * xClass ^ n := by
  rw [residue, poly_shiftLeft, map_mul, map_pow, AdjoinRoot.mk_X]
  rfl

theorem residue_gNat : residue gNat = 0 := AdjoinRoot.mk_self

/-- The residue class of a number is 0 exactly when G divides its polynomial. -/
theorem residue_eq_zero_iff {a : Nat} : residue a = 0 ↔ poly gNat ∣ poly a := AdjoinRoot.mk_eq_zero

theorem gNat_ne_zero : gNat ≠ 0 := by decide

/-- G has degree 32 (00_scope.md R9). -/
theorem deg_gNat : deg gNat = 32 := by decide

/-- Below `2 ^ 32` only 0 is a multiple of G. -/
theorem eq_zero_of_residue_eq_zero {a : Nat} (h : a < 2 ^ 32) (hres : residue a = 0) : a = 0 := by
  have hdeg : (poly a).degree < (poly gNat).degree := by
    rwa [degree_poly gNat_ne_zero, deg_gNat, degree_poly_lt_iff]
  exact poly_eq_zero_iff.mp (eq_zero_of_dvd_of_degree_lt (residue_eq_zero_iff.mp hres) hdeg)

/-- A number below `2 ^ 32` is determined by its residue class: the reduced polynomials represent the classes once. -/
theorem eq_of_residue_eq {a b : Nat} (ha : a < 2 ^ 32) (hb : b < 2 ^ 32) (h : residue a = residue b) : a = b := by
  have hzero : residue (a ^^^ b) = 0 := by
    rw [residue_xor, h, ← residue_xor, Nat.xor_self, residue_zero]
  exact Nat.eq_of_xor_eq_zero (eq_zero_of_residue_eq_zero (Nat.xor_lt_two_pow ha hb) hzero)

/-- `timesX` multiplies by x modulo G, for every number (41_gf2_arith.md R142). -/
theorem residue_timesX (a : Nat) : residue (timesX a) = residue a * xClass := by
  have hshift : residue (a <<< 1) = residue a * xClass := by rw [residue_shiftLeft, pow_one]
  rw [timesX]
  split
  · rw [residue_xor, residue_gNat, add_zero, hshift]
  · exact hshift

/-- The residue class of a number by its lowest bit and the others. -/
theorem residue_shiftRight_one (b : Nat) :
    residue b = (if b.testBit 0 then 1 else 0) + residue (b >>> 1) * xClass := by
  conv_lhs => rw [← xor_shiftRight_one_shiftLeft_one b]
  rw [residue_xor, residue_shiftLeft, pow_one]
  split <;> simp

/-- `mulm` multiplies modulo G, for every two numbers (41_gf2_arith.md R143). -/
theorem residue_mulm (a b : Nat) : residue (mulm a b) = residue a * residue b := by
  induction b using Nat.strongRecOn generalizing a with
  | ind b ih =>
    by_cases hb : b = 0
    · rw [hb, mulm_zero_right, residue_zero, mul_zero]
    · rw [mulm_step, residue_xor, ih (b >>> 1) (by rw [Nat.shiftRight_eq_div_pow]; omega), residue_timesX,
        residue_shiftRight_one b]
      split
      · ring
      · rw [residue_zero]
        ring

/-- `modG` reduces modulo G (41_gf2_arith.md R141). -/
theorem residue_modG (a : Nat) : residue (modG a) = residue a := by
  obtain ⟨heq, -⟩ := longDivide_spec a gNat_ne_zero
  have hres : residue a = residue (longDivide a gNat).1 * residue gNat + residue (longDivide a gNat).2 := by
    simp only [residue, ← heq, map_add, map_mul]
  rw [hres, residue_gNat, mul_zero, zero_add]
  rfl

theorem modG_lt (a : Nat) : modG a < 2 ^ 32 := by
  obtain ⟨-, hlt⟩ := longDivide_spec a gNat_ne_zero
  rwa [deg_gNat] at hlt

/-- Settles O33: both sides are reduced and stand for the product in GF(2)[X] / (G). -/
theorem mulmIsProductModG : Obligations.MulmIsProductModG := by
  intro a b ha
  refine ⟨eq_of_residue_eq (mulm_lt ha b) (modG_lt _) ?_, mulm_lt ha b⟩
  rw [residue_mulm, residue_modG, residue_clmul]

theorem mulm_comm {a b : Nat} (ha : a < 2 ^ 32) (hb : b < 2 ^ 32) : mulm a b = mulm b a :=
  eq_of_residue_eq (mulm_lt ha b) (mulm_lt hb a) (by rw [residue_mulm, residue_mulm, mul_comm])

theorem mulm_assoc {a : Nat} (ha : a < 2 ^ 32) (b c : Nat) : mulm (mulm a b) c = mulm a (mulm b c) :=
  eq_of_residue_eq (mulm_lt (mulm_lt ha b) c) (mulm_lt ha _) (by simp only [residue_mulm, mul_assoc])

theorem mulm_xor {a : Nat} (ha : a < 2 ^ 32) (b c : Nat) : mulm a (b ^^^ c) = mulm a b ^^^ mulm a c :=
  eq_of_residue_eq (mulm_lt ha _) (Nat.xor_lt_two_pow (mulm_lt ha b) (mulm_lt ha c))
    (by simp only [residue_mulm, residue_xor, mul_add])

theorem mulm_zero_left (b : Nat) : mulm 0 b = 0 :=
  eq_of_residue_eq (mulm_lt (by decide) b) (by decide) (by rw [residue_mulm, residue_zero, zero_mul])

theorem mulm_one_right {a : Nat} (ha : a < 2 ^ 32) : mulm a 1 = a := by
  rw [mulm_comm ha (by decide), mulm_one_left ha]

/-- Settles O34: the laws are those of the ring GF(2)[X] / (G), carried to the reduced polynomials. -/
theorem mulmRingLaws : Obligations.MulmRingLaws := fun a b c ha hb _ =>
  ⟨mulm_comm ha hb, mulm_assoc ha b c, mulm_xor ha b c, mulm_one_right ha, mulm_one_left ha, mulm_zero_right a,
    mulm_zero_left a⟩

/-- One iteration of the exponentiation (41_gf2_arith.md R144). -/
theorem powmLoop_succ {e : Nat} (he : e ≠ 0) (n a z : Nat) :
    powmLoop (n + 1) a e z = powmLoop n (mulm a a) (e >>> 1) (if e.testBit 0 then mulm z a else z) := if_neg he

/-- An exponent is its lowest bit and twice the rest. -/
theorem toNat_testBit_zero_add (e : Nat) : (e.testBit 0).toNat + 2 * (e >>> 1) = e := by
  rw [Nat.toNat_testBit, Nat.shiftRight_eq_div_pow]
  omega

/-- Square-and-multiply multiplies its accumulator by the power (41_gf2_arith.md R144). -/
theorem residue_powmLoop (n : Nat) : ∀ a e z : Nat, e < 2 ^ n →
    residue (powmLoop n a e z) = residue z * residue a ^ e := by
  induction n with
  | zero =>
    intro a e z he
    obtain rfl : e = 0 := by simpa using he
    rw [powmLoop_zero, pow_zero, mul_one]
  | succ n ih =>
    intro a e z he
    by_cases h0 : e = 0
    · rw [h0, powmLoop_zero, pow_zero, mul_one]
    · have hpow : residue a ^ e = residue a ^ (e.testBit 0).toNat * residue a ^ (2 * (e >>> 1)) := by
        rw [← pow_add, toNat_testBit_zero_add]
      rw [powmLoop_succ h0, ih _ _ _ (shiftRight_one_lt he), residue_mulm, ← pow_two, ← pow_mul, hpow]
      cases e.testBit 0 with
      | true => rw [if_pos rfl, residue_mulm, Bool.toNat_true, pow_one, mul_assoc]
      | false => rw [if_neg Bool.false_ne_true, Bool.toNat_false, pow_zero, one_mul]

/-- `powm` is the power modulo G (41_gf2_arith.md R144). -/
theorem residue_powm (a e : Nat) : residue (powm a e) = residue a ^ e := by
  rw [powm_eq_loop (lt_two_pow_bitLen e), residue_powmLoop _ _ _ _ (lt_two_pow_bitLen e), residue_one, one_mul]

theorem powm_lt {a : Nat} (ha : a < 2 ^ 32) (e : Nat) : powm a e < 2 ^ 32 := powmLoop_lt _ a e 1 ha (by decide)

/-- One factor more is one product more (41_gf2_arith.md R144). -/
theorem powm_succ {a : Nat} (ha : a < 2 ^ 32) (e : Nat) : powm a (e + 1) = mulm (powm a e) a :=
  eq_of_residue_eq (powm_lt ha _) (mulm_lt (powm_lt ha e) a) (by
    rw [residue_mulm, residue_powm, residue_powm, pow_succ])

/-- Settles O35, by the power in GF(2)[X] / (G). -/
theorem powmIsRepeatedProduct : Obligations.PowmIsRepeatedProduct := fun _ ha =>
  ⟨rfl, powm_succ ha, powm_lt ha, fun e => by rw [powm_succ (by decide), mulm_zero_right]⟩

/-- Repeated multiplication by x multiplies by a power of x. -/
theorem residue_iterate_timesX (n a : Nat) : residue (timesX^[n] a) = residue a * xClass ^ n := by
  induction n with
  | zero => rw [Function.iterate_zero_apply, pow_zero, mul_one]
  | succ n ih => rw [Function.iterate_succ_apply', residue_timesX, ih, pow_succ, mul_assoc]

/-- The register after folding a byte, before the final XOR (42_crc_engine.md R171). -/
theorem fold_xor_crcXorOut (acc : Word) (b : Byte) :
    fold acc b ^^^ crcXorOut = crcShifts 8 ((acc ^^^ crcXorOut) ^^^ b.setWidth 32) := by
  rw [fold, BitVec.xor_assoc, BitVec.xor_self, BitVec.xor_zero]

/-- Settles O39: the 8 shifts of a fold are 8 multiplications by x in the forward domain. -/
theorem foldIsMultiplicationByX8 : Obligations.FoldIsMultiplicationByX8 := by
  intro acc b
  refine eq_of_residue_eq (BitVec.isLt _) (mulm_lt (BitVec.isLt _) _) ?_
  rw [show 0xFFFFFFFF#32 = crcXorOut from rfl, fold_xor_crcXorOut, rev32_crcShifts_toNat, residue_iterate_timesX,
    residue_mulm, ← Nat.one_shiftLeft, residue_shiftLeft, residue_one, one_mul]

end Sys2Proof.Machine

/-! ## What each command writes outside the fault state (40_data.md, 41_gf2_arith.md, 42_crc_engine.md, 43_patch.md) -/

namespace Sys2Proof.Machine

/-- An accumulator write is a write of ACC alone (10_state.md R34). -/
theorem writesOnlyAcc_setAcc (s : State) (v : Word) : s.writesOnlyAcc (s.setAcc v) v :=
  ⟨rfl, rfl, rfl, ⟨rfl, rfl, rfl⟩, rfl, rfl, rfl⟩

/-- A window write whose bytes are `f` is a write of those bytes alone (10_state.md R36). -/
theorem writesOnlyWin_setWin_of {s : State} {w : Vector Byte 4} {f : Fin 4 → Byte} (h : ∀ j : Fin 4, w[j] = f j) :
    s.writesOnlyWin (s.setWin w) f := by
  obtain ⟨-, hframe⟩ := writesOnlyWin_setWin s w
  exact ⟨h, hframe⟩

/-- A 32-bit operand in range gives the rest of the command its value (60_exceptions.md R233). -/
theorem runCommand_operand32 {s : State} {r : Reg} (h : (s.reg r).getLsbD 32 = false)
    (k : Word → Except ErrorCause State) :
    runCommand s (operand32 s r >>= k) = runCommand s (k ((s.reg r).setWidth 32)) := by
  rw [operand32_of_clear h]
  rfl

/-- A 32-bit result as a number (10_state.md R33). -/
theorem zext33_ofNat_toNat {n : Nat} (h : n < 2 ^ 32) : (zext33 (BitVec.ofNat 32 n)).toNat = n := by
  rw [zext33_toNat, BitVec.toNat_ofNat, Nat.mod_eq_of_lt h]

theorem immediate33_toNat (b : Byte) : (immediate33 b).toNat = b.toNat := by
  rw [immediate33, BitVec.toNat_setWidth, Nat.mod_eq_of_lt (by omega)]

theorem poly_ne_zero_iff {x : Poly} : x ≠ 0#33 ↔ x.toNat ≠ 0 := by
  rw [ne_eq, ne_eq, ← BitVec.toNat_inj, BitVec.toNat_zero]

/-! Each command's next state. -/

section Commands

variable {s : State} (hf : s.fault = false)

include hf

theorem exec_ldi (rd : Reg) (b : Byte) : exec (.ldi rd b) s = .next (s.setReg rd (immediate33 b)) := runCommand_ok hf _

theorem exec_ldg (rd : Reg) : exec (.ldg rd) s = .next (s.setReg rd genPoly) := runCommand_ok hf _

theorem exec_deg (rd rs1 : Reg) : exec (.deg rd rs1) s = .next (s.setReg rd (degreeResult (s.reg rs1))) :=
  runCommand_ok hf _

theorem exec_crcinit : exec .crcinit s = .next (s.setAcc 0#32) := runCommand_ok hf _

theorem exec_crcbi (b : Byte) : exec (.crcbi b) s = .next (s.setAcc (fold s.acc b)) := runCommand_ok hf _

theorem exec_crcrd (rd : Reg) : exec (.crcrd rd) s = .next (s.setReg rd (zext33 (rev32 s.acc))) := runCommand_ok hf _

theorem exec_crcraw (rd : Reg) : exec (.crcraw rd) s = .next (s.setReg rd (zext33 s.acc)) := runCommand_ok hf _

theorem exec_winrd (rd : Reg) : exec (.winrd rd) s = .next (s.setReg rd (zext33 s.winWord)) := runCommand_ok hf _

theorem exec_crcw {rs1 : Reg} (h1 : (s.reg rs1).getLsbD 32 = false) :
    exec (.crcw rs1) s = .next (s.setAcc (foldWord s.acc ((s.reg rs1).setWidth 32))) :=
  (runCommand_operand32 h1 _).trans (runCommand_ok hf _)

theorem exec_crcset {rs1 : Reg} (h1 : (s.reg rs1).getLsbD 32 = false) :
    exec (.crcset rs1) s = .next (s.setAcc ((s.reg rs1).setWidth 32)) :=
  (runCommand_operand32 h1 _).trans (runCommand_ok hf _)

theorem exec_rev32 {rs1 : Reg} (h1 : (s.reg rs1).getLsbD 32 = false) (rd : Reg) :
    exec (.rev32 rd rs1) s = .next (s.setReg rd (zext33 (rev32 ((s.reg rs1).setWidth 32)))) :=
  (runCommand_operand32 h1 _).trans (runCommand_ok hf _)

theorem exec_apply {rs1 : Reg} (h1 : (s.reg rs1).getLsbD 32 = false) :
    exec (.apply rs1) s = .next (s.setWin (xorWindow s.win (patchBytes ((s.reg rs1).setWidth 32)))) :=
  (runCommand_operand32 h1 _).trans (runCommand_ok hf _)

theorem exec_winld {rs1 : Reg} (h1 : (s.reg rs1).getLsbD 32 = false) :
    exec (.winld rs1) s = .next (s.setWin (windowOf ((s.reg rs1).setWidth 32))) :=
  (runCommand_operand32 h1 _).trans (runCommand_ok hf _)

theorem exec_mulm {rs1 rs2 : Reg} (h1 : (s.reg rs1).getLsbD 32 = false) (h2 : (s.reg rs2).getLsbD 32 = false)
    (rd : Reg) : exec (.mulm rd rs1 rs2) s =
      .next (s.setReg rd (zext33 (BitVec.ofNat 32 (mulm (s.reg rs1).toNat (s.reg rs2).toNat)))) := by
  rw [← toNat_setWidth_of_clear h1, ← toNat_setWidth_of_clear h2]
  exact (runCommand_operand32 h1 _).trans ((runCommand_operand32 h2 _).trans (runCommand_ok hf _))

theorem exec_powm {rs1 : Reg} (h1 : (s.reg rs1).getLsbD 32 = false) (rd rs2 : Reg) : exec (.powm rd rs1 rs2) s =
    .next (s.setReg rd (zext33 (BitVec.ofNat 32 (powm (s.reg rs1).toNat (s.reg rs2).toNat)))) := by
  rw [← toNat_setWidth_of_clear h1]
  exact (runCommand_operand32 h1 _).trans (runCommand_ok hf _)

/-- A RECIP whose operand has a reciprocal (41_gf2_arith.md R154). -/
theorem exec_recip {rs1 : Reg} (h1 : (s.reg rs1).getLsbD 32 = false) {r : Nat}
    (hr : recip (s.reg rs1).toNat = .ok r) (rd : Reg) :
    exec (.recip rd rs1) s = .next (s.setReg rd (zext33 (BitVec.ofNat 32 r))) := by
  rw [← toNat_setWidth_of_clear h1] at hr
  refine (runCommand_operand32 h1 _).trans ?_
  rw [hr]
  exact runCommand_ok hf _

/-- A RECIP whose operand has no reciprocal raises NoReciprocal (41_gf2_arith.md R154). -/
theorem exec_recip_error {rs1 : Reg} (h1 : (s.reg rs1).getLsbD 32 = false)
    (hr : recip (s.reg rs1).toNat = .error .noReciprocal) (rd : Reg) :
    exec (.recip rd rs1) s = .next (s.raise .noReciprocal) := by
  rw [← toNat_setWidth_of_clear h1] at hr
  refine (runCommand_operand32 h1 _).trans ?_
  rw [hr]
  exact runCommand_error hf _

/-- DIVR by a divisor other than 0 (41_gf2_arith.md R151). -/
theorem exec_divr {rd rd2 : Reg} (hne : rd ≠ rd2) {rs1 rs2 : Reg} {q r : Nat}
    (hqr : divrem (s.reg rs1).toNat (s.reg rs2).toNat = .ok (q, r)) : exec (.divr rd rd2 rs1 rs2) s =
      .next ((s.setReg rd (BitVec.ofNat 33 q)).setReg rd2 (BitVec.ofNat 33 r)) := by
  refine (congrArg (runCommand s) (if_neg hne)).trans ?_
  rw [operand33, operand33, hqr]
  exact runCommand_ok hf _

/-- DIVR by 0 raises DivisionByZero (41_gf2_arith.md R151). -/
theorem exec_divr_zero {rd rd2 : Reg} (hne : rd ≠ rd2) (rs1 : Reg) {rs2 : Reg} (h0 : s.reg rs2 = 0#33) :
    exec (.divr rd rd2 rs1 rs2) s = .next (s.raise .divisionByZero) := by
  refine (congrArg (runCommand s) (if_neg hne)).trans ?_
  rw [operand33, operand33, h0, BitVec.toNat_zero, divrem_zero]
  exact runCommand_error hf _

/-- RECIP of 0 raises NoReciprocal (41_gf2_arith.md R154). -/
theorem exec_recip_zero (rd : Reg) {rs1 : Reg} (h0 : s.reg rs1 = 0#33) :
    exec (.recip rd rs1) s = .next (s.raise .noReciprocal) :=
  exec_recip_error hf (by rw [h0]; exact BitVec.getLsbD_zero) (by rw [h0, BitVec.toNat_zero, recip_zero]) rd

end Commands

/-! The data commands (40_data.md). -/

/-- Settles O43: NOP's pseudocode writes nothing. -/
theorem nopChangesNothing : Obligations.NopChangesNothing := fun _ => exec_nop

/-- Settles O44, by the register write of LDI. -/
theorem ldiWritesImmediate : Obligations.LdiWritesImmediate := fun s rd b hf =>
  ⟨_, _, exec_ldi hf rd b, writesOnlyReg_setReg s rd _, immediate33_toNat b⟩

/-- Settles O45, by the register write of LDG. -/
theorem ldgWritesGenerator : Obligations.LdgWritesGenerator := fun s rd hf =>
  ⟨_, exec_ldg hf rd, writesOnlyReg_setReg s rd _⟩

/-- Settles O46: PADD reads both sources before its register write. -/
theorem paddWritesSum : Obligations.PaddWritesSum := fun s rd rs1 rs2 hf =>
  ⟨_, exec_padd hf rd rs1 rs2, writesOnlyReg_setReg s rd _⟩

/-! The arithmetic commands (41_gf2_arith.md). -/

theorem degreeResult_zero : degreeResult 0#33 = noDegree := rfl

theorem degreeResult_toNat {x : Poly} (h : x ≠ 0#33) : (degreeResult x).toNat = deg x.toNat ∧ deg x.toNat ≤ 32 := by
  have hdeg : deg x.toNat ≤ 32 := Nat.le_of_lt_succ ((deg_lt_iff (poly_ne_zero_iff.mp h)).mpr x.isLt)
  refine ⟨?_, hdeg⟩
  rw [degreeResult, if_neg h, BitVec.toNat_ofNat, Nat.mod_eq_of_lt (by omega)]

/-- The bit at the degree is set and none is above it (41_gf2_arith.md R140). -/
theorem getLsbD_deg {x : Poly} (h : x ≠ 0#33) :
    x.getLsbD (deg x.toNat) = true ∧ ∀ j, deg x.toNat < j → x.getLsbD j = false := by
  have h0 := poly_ne_zero_iff.mp h
  refine ⟨Nat.testBit_log2 h0, fun j hj => ?_⟩
  exact Nat.testBit_lt_two_pow ((deg_lt_iff h0).mp hj)

/-- Settles O47: the degree is the base-2 logarithm, whose bit is the highest. -/
theorem degWritesHighestSetBit : Obligations.DegWritesHighestSetBit := by
  intro s rd rs1 hf
  refine ⟨_, _, exec_deg hf rd rs1, writesOnlyReg_setReg s rd _, fun h => ?_, fun h => ?_⟩
  · rw [h, degreeResult_zero]
    rfl
  · obtain ⟨hval, hle⟩ := degreeResult_toNat h
    rw [hval]
    exact ⟨hle, getLsbD_deg h⟩

/-- Settles O48: quotient and remainder fit 33 bits, and the two destinations are different. -/
theorem divrWritesQuotientAndRemainder : Obligations.DivrWritesQuotientAndRemainder := by
  intro s rd rd2 rs1 rs2 hf hne hdivisor
  obtain ⟨-, hdivision⟩ := divremIsPolynomialDivision
  obtain ⟨q, r, hqr, -, -, -, hfit⟩ := hdivision (s.reg rs1).toNat (s.reg rs2).toNat (poly_ne_zero_iff.mp hdivisor)
  obtain ⟨hq, hr⟩ := hfit (s.reg rs1).isLt (s.reg rs2).isLt
  refine ⟨_, q, r, exec_divr hf hne hqr, hqr, ?_, ?_, ?_, rfl, rfl, ⟨rfl, rfl, rfl⟩, rfl, rfl, rfl⟩
  · rw [State.reg_setReg_other _ _ hne, State.reg_setReg_same, BitVec.toNat_ofNat, Nat.mod_eq_of_lt hq]
  · rw [State.reg_setReg_same, BitVec.toNat_ofNat, Nat.mod_eq_of_lt hr]
  · intro x h1 h2
    rw [State.reg_setReg_other _ _ h2, State.reg_setReg_other _ _ h1]

/-- Settles O49: the product is reduced, so its low 32 bits are all of it. -/
theorem mulmWritesProduct : Obligations.MulmWritesProduct := fun s rd _ _ hf h1 h2 =>
  ⟨_, _, exec_mulm hf h1 h2 rd, writesOnlyReg_setReg s rd _, zext33_ofNat_toNat (mulm_lt (toNat_lt_of_clear h1) _)⟩

/-- Settles O50: the power is reduced, so its low 32 bits are all of it. -/
theorem powmWritesPower : Obligations.PowmWritesPower := fun s rd _ rs2 hf h1 =>
  ⟨_, _, exec_powm hf h1 rd rs2, writesOnlyReg_setReg s rd _, zext33_ofNat_toNat (powm_lt (toNat_lt_of_clear h1) _)⟩

/-- Settles O52: both errors have their code, and raising one changes nothing else. -/
theorem arithmeticErrorsAreRaised : Obligations.ArithmeticErrorsAreRaised := fun s hf =>
  ⟨fun _ _ rs1 _ hne h0 => ⟨_, exec_divr_zero hf hne rs1 h0, raisesOnly_raise s .divisionByZero⟩,
    fun rd _ h0 => ⟨_, exec_recip_zero hf rd h0, raisesOnly_raise s .noReciprocal⟩⟩

/-! The commands of the CRC datapath (42_crc_engine.md). -/

/-- Byte `j` of an operand is that byte of its register (20_memory.md R70). -/
theorem byteOf_setWidth (x : Poly) {j : Nat} (h : j < 4) : byteOf (x.setWidth 32) j = x.extractLsb' (8 * j) 8 :=
  BitVec.extractLsb'_setWidth_of_le (by omega)

/-- Folding an operand's word is folding its four bytes, from bits 7:0 up (42_crc_engine.md R182). -/
theorem foldWord_setWidth (acc : Word) (x : Poly) : foldWord acc (x.setWidth 32) =
    [x.extractLsb' 0 8, x.extractLsb' 8 8, x.extractLsb' 16 8, x.extractLsb' 24 8].foldl fold acc := by
  rw [foldWord, byteOf_setWidth x (by decide), byteOf_setWidth x (by decide), byteOf_setWidth x (by decide),
    byteOf_setWidth x (by decide)]
  rfl

/-- Settles O53, by the accumulator writes of the four commands. -/
theorem crcCommandsWriteAcc : Obligations.CrcCommandsWriteAcc := by
  intro s hf
  refine ⟨⟨_, exec_crcinit hf, writesOnlyAcc_setAcc s _⟩, fun b => ⟨_, exec_crcbi hf b, writesOnlyAcc_setAcc s _⟩,
    fun rs1 h1 => ?_, fun rs1 h1 => ?_⟩
  · rw [← foldWord_setWidth]
    exact ⟨_, exec_crcw hf h1, writesOnlyAcc_setAcc s _⟩
  · rw [← BitVec.setWidth_eq_extractLsb' (by decide)]
    exact ⟨_, exec_crcset hf h1, writesOnlyAcc_setAcc s _⟩

/-- Settles O54, by the register writes of the two commands. -/
theorem crcReadsWriteRegister : Obligations.CrcReadsWriteRegister := fun s rd hf =>
  ⟨⟨_, _, exec_crcrd hf rd, writesOnlyReg_setReg s rd _, zext33_toNat _⟩,
    ⟨_, _, exec_crcraw hf rd, writesOnlyReg_setReg s rd _, zext33_toNat _⟩⟩

/-- A zero-extended word has the word's bits. -/
theorem zext33_getLsbD {i : Nat} (v : Word) (h : i < 32) : (zext33 v).getLsbD i = v.getLsbD i := by
  rw [zext33, BitVec.getLsbD_setWidth, decide_eq_true (show i < 33 by omega), Bool.true_and]

/-- Settles O55, bit by bit. -/
theorem rev32WritesReversedBits : Obligations.Rev32WritesReversedBits := by
  intro s rd rs1 hf h1
  refine ⟨_, _, exec_rev32 hf h1 rd, writesOnlyReg_setReg s rd _, zext33_bit32 _, fun i hi => ?_⟩
  rw [zext33_getLsbD _ hi, rev32_getLsbD _ hi, BitVec.getLsbD_setWidth, decide_eq_true (show 31 - i < 32 by omega),
    Bool.true_and]

/-- Settles O38, by the bits of the reversed word. -/
theorem rev32ReversesBits : Obligations.Rev32ReversesBits :=
  ⟨fun v _ hi => rev32_getLsbD v hi, rev32_rev32, rev32_xor⟩

/-! The commands of the patch calculator (43_patch.md). -/

/-- Byte `i` of the patch (43_patch.md R201). -/
theorem patchBytes_getElem (d : Word) (i : Fin 4) : (patchBytes d)[i] = byteOf (rev32 d) i.val := by
  match i with
  | 0 | 1 | 2 | 3 => rfl

/-- Byte `j` of a patched window (43_patch.md R201, R202). -/
theorem xorWindow_patchBytes_getElem (w : Vector Byte 4) (d : Word) (j : Fin 4) :
    (xorWindow w (patchBytes d))[j] = w[j] ^^^ byteOf (rev32 d) j.val := by
  match j with
  | 0 | 1 | 2 | 3 => simp [xorWindow, patchBytes]

/-- Settles O40, bit by bit. -/
theorem patchBytesAreReversedBigEndian : Obligations.PatchBytesAreReversedBigEndian := by
  intro d i m hm
  rw [patchBytes_getElem, byteOf_getLsbD, decide_eq_true hm, Bool.true_and, rev32_getLsbD _ (by omega), Nat.sub_sub]

/-- Settles O57, byte by byte. -/
theorem applyPatchesWindow : Obligations.ApplyPatchesWindow := by
  intro s rs1 hf h1
  refine ⟨_, exec_apply hf h1, writesOnlyWin_setWin_of fun j => ?_⟩
  rw [xorWindow_patchBytes_getElem, BitVec.setWidth_eq_extractLsb' (by decide)]
  rfl

/-- Settles O58, byte by byte. -/
theorem winldLoadsWindow : Obligations.WinldLoadsWindow := fun _ _ hf h1 =>
  ⟨_, exec_winld hf h1, writesOnlyWin_setWin_of fun j => (windowOf_getElem _ j).trans (byteOf_setWidth _ j.isLt)⟩

/-- Settles O59: the bytes of the window word are the window's. -/
theorem winrdReadsWindow : Obligations.WinrdReadsWindow := by
  intro s rd hf
  refine ⟨_, _, exec_winrd hf rd, writesOnlyReg_setReg s rd _, zext33_bit32 _, fun j => ?_⟩
  rw [zext33, BitVec.extractLsb'_setWidth_of_le (by omega)]
  exact byteOf_winWord s j

/-- Settles O18: each word is the word of the command that it is written for. -/
theorem sampleWordsDecode : Obligations.SampleWordsDecode :=
  ⟨decodeOfEncode (.divr 3 4 1 2) rfl, decodeOfEncode (.ldi 3 0x20#8) rfl, decodeOfEncode (.mulm 0 1 2) rfl,
    decodeOfEncode (.crcbi 0x68#8) rfl, decodeOfEncode (.crcw 1) rfl, decodeOfEncode (.rev32 2 2) rfl,
    decodeOfEncode (.delta 4 1 2 3) rfl, decodeOfEncode (.winrd 5) rfl⟩

end Sys2Proof.Machine

/-! ## The reciprocal modulo G is the extended Euclidean algorithm (41_gf2_arith.md R145) -/

namespace Sys2Proof.Machine

open Polynomial

/-- Divisors as numbers and as polynomials (41_gf2_arith.md R145). -/
theorem poly_dvd_iff {a d : Nat} : poly d ∣ poly a ↔ ∃ q, a = clmul q d := by
  constructor
  · intro h
    by_cases hd : d = 0
    · rw [hd, poly_zero, zero_dvd_iff, poly_eq_zero_iff] at h
      exact ⟨0, by rw [h, clmul_zero_left]⟩
    · obtain ⟨heq, -⟩ := longDivide_spec a hd
      obtain ⟨-, hmod⟩ := poly_longDivide a hd
      rw [← hmod, (modByMonic_eq_zero_iff_dvd (monic_poly hd)).mpr h, add_zero, ← poly_clmul] at heq
      exact ⟨_, (poly_injective heq).symm⟩
  · rintro ⟨q, rfl⟩
    rw [poly_clmul]
    exact dvd_mul_left _ _

/-- The only number whose polynomial divides 1 is 1. -/
theorem eq_one_of_poly_dvd_one {d : Nat} (h : poly d ∣ 1) : d = 1 := by
  have hd : d ≠ 0 := by
    rintro rfl
    rw [poly_zero, zero_dvd_iff] at h
    exact one_ne_zero h
  exact poly_eq_one_iff.mp ((monic_poly hd).eq_one_of_isUnit (isUnit_of_dvd_one h))

/-- `a` and G have no common divisor but 1 (41_gf2_arith.md R145). -/
def coprimeToG (a : Nat) : Prop := ∀ d q g : Nat, a = clmul q d → gNat = clmul g d → d = 1

theorem coprimeToG_iff {a : Nat} : coprimeToG a ↔ ∀ d, poly d ∣ poly a → poly d ∣ poly gNat → d = 1 := by
  simp only [coprimeToG, poly_dvd_iff]
  constructor
  · rintro h d ⟨q, hq⟩ ⟨g, hg⟩
    exact h d q g hq hg
  · exact fun h d q g hq hg => h d ⟨q, hq⟩ ⟨g, hg⟩

/-- What the loop of `recip` keeps of its four variables, for the operand `a`: `s` and `t` are the factors of `a` that
give `x` and `y` modulo G, and they are reduced for as long as they are used. -/
structure RecipInvariant (a x y s t : Nat) : Prop where
  x_lt : x < 2 ^ 33
  s_lt : s < 2 ^ 32
  t_lt : y ≠ 0 → t < 2 ^ 32
  s_mul : residue s * residue a = residue x
  t_mul : residue t * residue a = residue y

/-- One iteration of the loop of `recip` (41_gf2_arith.md R145). -/
theorem recipLoop_succ {y : Nat} (hy : y ≠ 0) (n x s t : Nat) : recipLoop (n + 1) x y s t =
    recipLoop n y (longDivide x y).2 t (s ^^^ mulm (longDivide x y).1 t) := if_neg hy

/-- The dividend's residue class by quotient and remainder. -/
theorem residue_longDivide (x : Nat) {y : Nat} (hy : y ≠ 0) :
    residue x = residue (longDivide x y).1 * residue y + residue (longDivide x y).2 := by
  obtain ⟨heq, -⟩ := longDivide_spec x hy
  simp only [residue, ← heq, map_add, map_mul]

/-- Twice a residue class is 0. -/
theorem residue_add_self (a : Nat) : residue a + residue a = 0 := by
  rw [← residue_xor, Nat.xor_self, residue_zero]

/-- A division that leaves a remainder has a divisor other than 1, so its quotient is reduced. -/
theorem longDivide_fst_lt_of_snd_ne_zero {x y : Nat} (hx : x < 2 ^ 33) (hy : y ≠ 0) (hr : (longDivide x y).2 ≠ 0) :
    (longDivide x y).1 < 2 ^ 32 := by
  obtain ⟨-, hlt⟩ := longDivide_spec x hy
  have hdegy : deg y ≠ 0 := by
    intro h0
    rw [h0] at hlt
    omega
  have hdegx : deg x ≤ 32 := by
    by_cases h0 : x = 0
    · simp [h0, deg]
    · exact Nat.le_of_lt_succ ((deg_lt_iff h0).mpr hx)
  exact Nat.lt_of_lt_of_le (longDivide_fst_lt x y) (Nat.pow_le_pow_right (by decide) (by omega))

/-- An iteration keeps the loop's invariant. -/
theorem RecipInvariant.next {a x y s t : Nat} (h : RecipInvariant a x y s t) (hy : y ≠ 0) (hy33 : y < 2 ^ 33) :
    RecipInvariant a y (longDivide x y).2 t (s ^^^ mulm (longDivide x y).1 t) where
  x_lt := hy33
  s_lt := h.t_lt hy
  t_lt hr := Nat.xor_lt_two_pow h.s_lt (mulm_lt (longDivide_fst_lt_of_snd_ne_zero h.x_lt hy hr) t)
  s_mul := h.t_mul
  t_mul := by
    have hx := h.s_mul.trans (residue_longDivide x hy)
    have hcancel := residue_add_self (longDivide x y).1
    rw [residue_xor, residue_mulm, add_mul, hx, mul_assoc, h.t_mul]
    linear_combination residue y * hcancel

/-- A division keeps the common divisors. -/
theorem dvd_remainder_iff (d : (ZMod 2)[X]) (x : Nat) {y : Nat} (hy : y ≠ 0) :
    d ∣ poly y ∧ d ∣ poly (longDivide x y).2 ↔ d ∣ poly x ∧ d ∣ poly y := by
  obtain ⟨heq, -⟩ := longDivide_spec x hy
  rw [and_comm, and_congr_left_iff, ← heq]
  exact fun hd => (dvd_add_right (hd.mul_left _)).symm

/-- The loop of `recip` ends with a greatest common divisor and the reduced factor of `a` that gives it modulo G. -/
theorem recipLoop_spec {a : Nat} (n : Nat) : ∀ x y s t : Nat, RecipInvariant a x y s t → y < 2 ^ n → y < 2 ^ 33 →
    (∀ d, d ∣ poly (recipLoop n x y s t).1 ↔ d ∣ poly x ∧ d ∣ poly y) ∧
    (recipLoop n x y s t).2 < 2 ^ 32 ∧
    residue (recipLoop n x y s t).2 * residue a = residue (recipLoop n x y s t).1 := by
  induction n with
  | zero =>
    intro x y s t h hy _
    obtain rfl : y = 0 := by simpa using hy
    rw [recipLoop_zero]
    exact ⟨fun d => by simp, h.s_lt, h.s_mul⟩
  | succ n ih =>
    intro x y s t h hy hy33
    by_cases h0 : y = 0
    · rw [h0, recipLoop_zero]
      exact ⟨fun d => by simp, h.s_lt, h.s_mul⟩
    · obtain ⟨-, hlt⟩ := longDivide_spec x h0
      have hdeg : deg y ≤ n := Nat.le_of_lt_succ ((deg_lt_iff h0).mpr hy)
      have hdeg32 : deg y ≤ 32 := Nat.le_of_lt_succ ((deg_lt_iff h0).mpr hy33)
      obtain ⟨hdvd, hrest⟩ := ih _ _ _ _ (h.next h0 hy33)
        (Nat.lt_of_lt_of_le hlt (Nat.pow_le_pow_right (by decide) hdeg))
        (Nat.lt_of_lt_of_le hlt (Nat.pow_le_pow_right (by decide) (by omega)))
      rw [recipLoop_succ h0]
      exact ⟨fun d => (hdvd d).trans (dvd_remainder_iff d x h0), hrest⟩

/-- `recip` of a reduced operand: with `g` a greatest common divisor of it and G, and `u` a reduced factor that gives
`g` modulo G, it is `u` or the error, as `g` is 1 or not (41_gf2_arith.md R145). -/
theorem recip_spec {a : Nat} (ha : a < 2 ^ 32) : ∃ g u : Nat,
    recip a = (if g = 1 then .ok u else .error .noReciprocal) ∧
    (∀ d, d ∣ poly g ↔ d ∣ poly gNat ∧ d ∣ poly a) ∧ u < 2 ^ 32 ∧ residue u * residue a = residue g := by
  have hstart : RecipInvariant a gNat a 0 1 :=
    ⟨by decide, by decide, fun _ => by decide, by rw [residue_zero, zero_mul, residue_gNat],
      by rw [residue_one, one_mul]⟩
  exact ⟨_, _, rfl, recipLoop_spec (bitLen a) gNat a 0 1 hstart (lt_two_pow_bitLen a) (by omega)⟩

/-- An operand that is coprime to G has its reciprocal computed (41_gf2_arith.md R145). -/
theorem recip_of_coprimeToG {a : Nat} (ha : a < 2 ^ 32) (h : coprimeToG a) :
    ∃ r, recip a = .ok r ∧ r < 2 ^ 32 ∧ mulm r a = 1 := by
  obtain ⟨g, u, hrecip, hdvd, hu, hmul⟩ := recip_spec ha
  obtain ⟨hG, hA⟩ := (hdvd (poly g)).mp dvd_rfl
  obtain rfl : g = 1 := coprimeToG_iff.mp h g hA hG
  refine ⟨u, by rw [hrecip, if_pos rfl], hu, eq_of_residue_eq (mulm_lt hu a) (by decide) ?_⟩
  rw [residue_mulm, hmul]

/-- An operand that is not coprime to G raises NoReciprocal (41_gf2_arith.md R145). -/
theorem recip_of_not_coprimeToG {a : Nat} (ha : a < 2 ^ 32) (h : ¬ coprimeToG a) :
    recip a = .error .noReciprocal := by
  obtain ⟨g, u, hrecip, hdvd, -, -⟩ := recip_spec ha
  rw [hrecip, if_neg]
  rintro rfl
  refine h (coprimeToG_iff.mpr fun d hA hG => eq_one_of_poly_dvd_one ?_)
  rw [← poly_one]
  exact (hdvd (poly d)).mpr ⟨hG, hA⟩

/-- Reduced factors that give the same product 1 are equal. -/
theorem eq_of_mulm_eq_one {a r r' : Nat} (hr : r < 2 ^ 32) (hr' : r' < 2 ^ 32) (h : mulm r a = 1) (h' : mulm r' a = 1) :
    r' = r := by
  refine eq_of_residue_eq hr' hr (left_inv_eq_right_inv (a := residue a) ?_ ?_)
  · rw [← residue_mulm, h', residue_one]
  · rw [mul_comm, ← residue_mulm, h, residue_one]

/-- Settles O36: the loop of `recip` ends with the greatest common divisor of the operand and G. -/
theorem recipIsTheReciprocal : Obligations.RecipIsTheReciprocal := by
  intro a ha
  refine ⟨fun h => ?_, recip_of_not_coprimeToG ha⟩
  obtain ⟨r, hrecip, hlt, hmul⟩ := recip_of_coprimeToG ha h
  exact ⟨r, hrecip, hlt, hmul, fun r' hlt' hmul' => eq_of_mulm_eq_one hlt hlt' hmul hmul'⟩

/-! ## x generates the units modulo G, so 0 alone has no reciprocal (41_gf2_arith.md R146) -/

/-- An operand with a reciprocal is coprime to G: a common divisor divides 1. -/
theorem coprimeToG_of_residue_mul_eq_one {a r : Nat} (h : residue r * residue a = 1) : coprimeToG a := by
  have hG : poly gNat ∣ poly (clmul r a ^^^ 1) := by
    rw [← residue_eq_zero_iff, residue_xor, residue_clmul, h, ← residue_one, residue_add_self]
  refine coprimeToG_iff.mpr fun d hdA hdG => eq_one_of_poly_dvd_one ?_
  have hsum : poly d ∣ poly r * poly a + 1 := by
    rw [← poly_clmul, ← poly_one, ← poly_xor]
    exact hdG.trans hG
  exact (dvd_add_right (hdA.mul_left _)).mp hsum

/-- The number of nonzero values below `2 ^ 32`, the order of x modulo G. -/
def unitCount : Nat := 2 ^ 32 - 1

theorem residue_two : residue 2 = xClass := by
  rw [show 2 = 1 <<< 1 from rfl, residue_shiftLeft, residue_one, one_mul, pow_one]

theorem residue_powm_two (k : Nat) : residue (powm 2 k) = xClass ^ k := by rw [residue_powm, residue_two]

/-- A power of a power modulo G. -/
theorem powm_powm {a : Nat} (ha : a < 2 ^ 32) (m n : Nat) : powm (powm a m) n = powm a (m * n) :=
  eq_of_residue_eq (powm_lt (powm_lt ha m) n) (powm_lt ha _) (by simp only [residue_powm, pow_mul])

/-- A power is not 1 if the power two steps on is not the square. -/
theorem powm_ne_one_of_powm_add_two_ne {a m : Nat} (ha : a < 2 ^ 32) (h : powm a (m + 2) ≠ mulm a a) :
    powm a m ≠ 1 := by
  refine fun hone => h (eq_of_residue_eq (powm_lt ha _) (mulm_lt ha a) ?_)
  have hres : residue a ^ m = 1 := by rw [← residue_powm, hone, residue_one]
  rw [residue_powm, residue_mulm, pow_add, hres, one_mul, pow_two]

/-! The order 2^32 - 1 is 65537 * 257 * 17 * 15. Its factors are taken out one after the other. -/

/-- x to the power 65537, of order 2^16 - 1. -/
def rootOrder65535 : Nat := 0xE5A85E35

/-- x to the power 65537 * 257, of order 2^8 - 1. -/
def rootOrder255 : Nat := 0x85DAD68C

/-- x to the power 65537 * 257 * 17, of order 2^4 - 1. -/
def rootOrder15 : Nat := 0x80E6C2BC

/-- x^32 is G without its leading term. -/
theorem powm_two_32 : powm 2 32 = 0x04C11DB7 := by
  have h31 : powm 2 31 = 2 ^ 31 := eq_of_residue_eq (powm_lt (by decide) 31) (by decide) (by
    rw [residue_powm_two, ← Nat.one_shiftLeft, residue_shiftLeft, residue_one, one_mul])
  rw [powm_succ (by decide), h31]
  decide

theorem powm_two_65537 : powm 2 65537 = rootOrder65535 := by
  have h2048 : powm 0x04C11DB7 2048 = 0xF0B4A1C1 := by decide
  calc powm 2 65537
    _ = mulm (powm 2 (32 * 2048)) 2 := powm_succ (by decide) (32 * 2048)
    _ = mulm 0xF0B4A1C1 2 := by rw [← powm_powm (by decide), powm_two_32, h2048]
    _ = rootOrder65535 := by decide

theorem powm_rootOrder65535_257 : powm rootOrder65535 257 = rootOrder255 := by decide

theorem powm_rootOrder255_17 : powm rootOrder255 17 = rootOrder15 := by decide

theorem powm_rootOrder15_3 : powm rootOrder15 3 ≠ 1 := by decide

theorem powm_rootOrder15_5 : powm rootOrder15 5 = 0x4AD76CE3 := by decide

theorem powm_rootOrder15_15 : powm rootOrder15 15 = 1 := by
  have h3 : powm 0x4AD76CE3 3 = 1 := by decide
  rw [show 15 = 5 * 3 from rfl, ← powm_powm (by decide), powm_rootOrder15_5, h3]

theorem powm_two_mul_65537 (n : Nat) : powm 2 (65537 * n) = powm rootOrder65535 n := by
  rw [← powm_powm (by decide), powm_two_65537]

theorem powm_two_mul_257 (n : Nat) : powm 2 (65537 * (257 * n)) = powm rootOrder255 n := by
  rw [powm_two_mul_65537, ← powm_powm (by decide), powm_rootOrder65535_257]

theorem powm_two_mul_17 (n : Nat) : powm 2 (65537 * (257 * (17 * n))) = powm rootOrder15 n := by
  rw [powm_two_mul_257, ← powm_powm (by decide), powm_rootOrder255_17]

/-- x to the full order is 1. -/
theorem powm_two_unitCount : powm 2 unitCount = 1 := (powm_two_mul_17 15).trans powm_rootOrder15_15

/-- x to the order without one of its prime factors is not 1. -/
theorem powm_two_unitCount_div_ne_one : ∀ p ∈ [3, 5, 17, 257, 65537], powm 2 (unitCount / p) ≠ 1 := by
  have h3 : powm 2 (unitCount / 3) ≠ 1 := (powm_two_mul_17 5).trans_ne (powm_rootOrder15_5.trans_ne (by decide))
  have h5 : powm 2 (unitCount / 5) ≠ 1 := (powm_two_mul_17 3).trans_ne powm_rootOrder15_3
  have h17 : powm 2 (unitCount / 17) ≠ 1 := (powm_two_mul_257 15).trans_ne
    (powm_ne_one_of_powm_add_two_ne (by decide) (by rw [powm_rootOrder255_17]; decide))
  have h257 : powm 2 (unitCount / 257) ≠ 1 := (powm_two_mul_65537 255).trans_ne
    (powm_ne_one_of_powm_add_two_ne (by decide) (by rw [powm_rootOrder65535_257]; decide))
  have h65537 : powm 2 (unitCount / 65537) ≠ 1 :=
    powm_ne_one_of_powm_add_two_ne (m := 65535) (by decide) (by rw [powm_two_65537]; decide)
  simp only [List.forall_mem_cons]
  exact ⟨h3, h5, h17, h257, h65537, nofun⟩

/-- The prime factors of the order (Fermat's numbers). -/
theorem prime_dvd_unitCount {p : Nat} (hp : p.Prime) (h : p ∣ unitCount) : p ∈ [3, 5, 17, 257, 65537] := by
  have hfactors : unitCount = 3 * 5 * 17 * 257 * 65537 := by decide
  have hdvd {q : Nat} (hq : q.Prime) (h : p ∣ q) : p = q := (Nat.prime_dvd_prime_iff_eq hp hq).mp h
  rw [hfactors] at h
  simp only [hp.dvd_mul] at h
  rcases h with (((h | h) | h) | h) | h <;> simp [hdvd (by norm_num) h]

/-- A power of x modulo G is 1 exactly when its computed value is. -/
theorem xClass_pow_eq_one_iff {k : Nat} : xClass ^ k = 1 ↔ powm 2 k = 1 := by
  rw [← residue_powm_two, ← residue_one]
  exact ⟨eq_of_residue_eq (powm_lt (by decide) k) (by decide), congrArg residue⟩

/-- G is primitive: x has the greatest order that there can be modulo G. -/
theorem orderOf_xClass : orderOf xClass = unitCount := by
  refine orderOf_eq_of_pow_and_pow_div_prime (by decide) (xClass_pow_eq_one_iff.mpr powm_two_unitCount) ?_
  intro p hp hdvd hone
  exact powm_two_unitCount_div_ne_one p (prime_dvd_unitCount hp hdvd) (xClass_pow_eq_one_iff.mp hone)

theorem isUnit_xClass : IsUnit xClass :=
  .of_pow_eq_one (xClass_pow_eq_one_iff.mpr powm_two_unitCount) (by decide)

/-- The residue classes modulo G are more than one. -/
theorem residue_one_ne_zero : (1 : GRing) ≠ 0 := by
  rw [← residue_one, ← residue_zero]
  exact fun h => absurd (eq_of_residue_eq (by decide) (by decide) h) (by decide)

/-- No power of x is 0 modulo G (43_patch.md R200). -/
theorem powm_two_ne_zero (k : Nat) : powm 2 k ≠ 0 := by
  intro h
  have hzero : xClass ^ k = 0 := by rw [← residue_powm_two, h, residue_zero]
  exact residue_one_ne_zero (isUnit_zero_iff.mp (hzero ▸ isUnit_xClass.pow k)).symm

/-- The powers of x below its order are different. -/
theorem powm_two_injOn : Set.InjOn (powm 2) (Finset.range unitCount) := by
  intro i hi j hj h
  rw [Finset.mem_coe, Finset.mem_range, ← orderOf_xClass] at hi hj
  refine pow_injOn_Iio_orderOf hi hj ?_
  dsimp only
  rw [← residue_powm_two, ← residue_powm_two, h]

/-- Every nonzero reduced polynomial is a power of x: there are as many powers as such polynomials. -/
theorem exists_powm_two_eq {a : Nat} (ha : a < 2 ^ 32) (h0 : a ≠ 0) : ∃ k, powm 2 k = a := by
  have hsub : (Finset.range unitCount).image (powm 2) ⊆ Finset.Ioo 0 (2 ^ 32) := by
    intro b hb
    obtain ⟨k, -, rfl⟩ := Finset.mem_image.mp hb
    exact Finset.mem_Ioo.mpr ⟨Nat.pos_of_ne_zero (powm_two_ne_zero k), powm_lt (by decide) k⟩
  have hcard : (Finset.Ioo 0 (2 ^ 32)).card ≤ ((Finset.range unitCount).image (powm 2)).card := by
    rw [Finset.card_image_of_injOn powm_two_injOn, Finset.card_range, Nat.card_Ioo]
    exact Nat.le_refl _
  have hmem : a ∈ (Finset.range unitCount).image (powm 2) := by
    rw [Finset.eq_of_subset_of_card_le hsub hcard, Finset.mem_Ioo]
    exact ⟨Nat.pos_of_ne_zero h0, ha⟩
  obtain ⟨k, -, hk⟩ := Finset.mem_image.mp hmem
  exact ⟨k, hk⟩

/-- A power of x has a power of x as its inverse modulo G. -/
theorem exists_xClass_pow_mul_eq_one (k : Nat) : ∃ m, xClass ^ m * xClass ^ k = 1 := by
  refine ⟨(unitCount - 1) * k, ?_⟩
  have hexp : (unitCount - 1) * k + k = unitCount * k := (Nat.succ_mul _ _).symm
  rw [← pow_add, hexp, pow_mul, ← orderOf_xClass, pow_orderOf_eq_one, one_pow]

/-- Every nonzero reduced polynomial is coprime to G (41_gf2_arith.md R146). -/
theorem coprimeToG_of_ne_zero {a : Nat} (ha : a < 2 ^ 32) (h0 : a ≠ 0) : coprimeToG a := by
  obtain ⟨k, rfl⟩ := exists_powm_two_eq ha h0
  obtain ⟨m, hm⟩ := exists_xClass_pow_mul_eq_one k
  exact coprimeToG_of_residue_mul_eq_one (r := powm 2 m) (by rw [residue_powm_two, residue_powm_two, hm])

/-- Every nonzero reduced polynomial has its reciprocal computed (41_gf2_arith.md R146). -/
theorem recip_of_ne_zero {a : Nat} (ha : a < 2 ^ 32) (h0 : a ≠ 0) : ∃ r, recip a = .ok r ∧ r < 2 ^ 32 ∧ mulm r a = 1 :=
  recip_of_coprimeToG ha (coprimeToG_of_ne_zero ha h0)

/-- Settles O37: x generates the nonzero residue classes, and `recip` of 0 is an error. -/
theorem onlyZeroHasNoReciprocal : Obligations.OnlyZeroHasNoReciprocal := by
  intro a ha
  by_cases h0 : a = 0
  · subst h0
    exact ⟨iff_of_true recip_zero rfl, fun h => absurd rfl h⟩
  · obtain ⟨r, hr, -, hmul⟩ := recip_of_ne_zero ha h0
    exact ⟨iff_of_false (by simp [hr]) h0, fun _ => ⟨r, hr, hmul⟩⟩

/-- DELTA's reciprocal of x^k exists for every tail count (43_patch.md R200). -/
theorem recip_powm_two (k : Nat) : ∃ r, recip (powm 2 k) = .ok r ∧ r < 2 ^ 32 := by
  obtain ⟨r, hr, hlt, -⟩ := recip_of_ne_zero (powm_lt (by decide) k) (powm_two_ne_zero k)
  exact ⟨r, hr, hlt⟩

/-- `delta` completes for every tail count (43_patch.md R200). -/
theorem delta_eq_ok (o t : Word) (k : Nat) : ∃ r, recip (powm 2 k) = .ok r ∧
    delta o t k = .ok (BitVec.ofNat 32 (mulm r (o ^^^ t).toNat)) ∧ mulm r (o ^^^ t).toNat < 2 ^ 32 := by
  obtain ⟨r, hr, hlt⟩ := recip_powm_two k
  exact ⟨r, hr, by rw [delta, hr], mulm_lt hlt _⟩

/-- The reversal of 0 is 0, as a linear function's value. -/
theorem rev32_zero : rev32 0#32 = 0#32 := by
  calc rev32 0#32
    _ = rev32 (0#32 ^^^ 0#32) := by rw [BitVec.xor_self]
    _ = 0#32 := by rw [rev32_xor, BitVec.xor_self]

/-- Settles O42: the difference is 0, and so is its product and the reversed word. -/
theorem equalCrcsNeedNoPatch : Obligations.EqualCrcsNeedNoPatch := by
  constructor
  · intro o k
    obtain ⟨r, -, hdelta, -⟩ := delta_eq_ok o o k
    rw [hdelta, BitVec.xor_self, BitVec.toNat_zero, mulm_zero_right]
  · intro w
    have hzero (j : Nat) : byteOf (rev32 0#32) j = 0#8 := by rw [rev32_zero, byteOf, BitVec.extractLsb'_zero]
    apply Vector.ext
    intro i hi
    have hbyte := xorWindow_patchBytes_getElem w 0#32 ⟨i, hi⟩
    rwa [hzero, BitVec.xor_zero] at hbyte

end Sys2Proof.Machine

/-! ## RECIP and DELTA complete, and the first condition of the priority list that holds decides (41_gf2_arith.md R154;
43_patch.md R209; 60_exceptions.md R234) -/

namespace Sys2Proof.Machine

/-- A nonzero operand with bit 32 clear has its reciprocal computed (41_gf2_arith.md R146). -/
theorem recip_toNat_of_clear {x : Poly} (h : x.getLsbD 32 = false) (h0 : x ≠ 0#33) :
    ∃ r, recip x.toNat = .ok r ∧ r < 2 ^ 32 ∧ mulm r x.toNat = 1 :=
  recip_of_ne_zero (toNat_lt_of_clear h) (poly_ne_zero_iff.mp h0)

/-- Settles O51: every nonzero operand in range has a reciprocal, which is reduced. -/
theorem recipWritesReciprocal : Obligations.RecipWritesReciprocal := by
  intro s rd rs1 hf h1 h0
  obtain ⟨r, hr, hlt, hmul⟩ := recip_toNat_of_clear h1 h0
  refine ⟨_, _, exec_recip hf h1 hr rd, writesOnlyReg_setReg s rd _, ?_⟩
  rw [zext33_ofNat_toNat hlt]
  exact ⟨hr, hlt, hmul⟩

/-- DELTA of two 32-bit CRCs completes for every tail count (43_patch.md R209). -/
theorem exec_delta {s : State} (hf : s.fault = false) {rs1 rs2 : Reg} (h1 : (s.reg rs1).getLsbD 32 = false)
    (h2 : (s.reg rs2).getLsbD 32 = false) (rd rs3 : Reg) : ∃ r, recip (powm 2 (s.reg rs3).toNat) = .ok r ∧
      mulm r (s.reg rs1 ^^^ s.reg rs2).toNat < 2 ^ 32 ∧ exec (.delta rd rs1 rs2 rs3) s =
        .next (s.setReg rd (zext33 (BitVec.ofNat 32 (mulm r (s.reg rs1 ^^^ s.reg rs2).toNat)))) := by
  obtain ⟨r, hr, hdelta, hlt⟩ :=
    delta_eq_ok ((s.reg rs1).setWidth 32) ((s.reg rs2).setWidth 32) (s.reg rs3).toNat
  have hxor : ((s.reg rs1).setWidth 32 ^^^ (s.reg rs2).setWidth 32).toNat = (s.reg rs1 ^^^ s.reg rs2).toNat := by
    rw [← BitVec.setWidth_xor, toNat_setWidth_of_clear (by rw [BitVec.getLsbD_xor, h1, h2]; rfl)]
  rw [hxor] at hdelta hlt
  refine ⟨r, hr, hlt, (runCommand_operand32 h1 _).trans ((runCommand_operand32 h2 _).trans ?_)⟩
  rw [operand33, hdelta]
  exact runCommand_ok hf _

/-- Settles O56: `recip` succeeds for every power of x, and the delta is reduced. -/
theorem deltaWritesDelta : Obligations.DeltaWritesDelta := by
  intro s rd rs1 rs2 rs3 hf h1 h2
  obtain ⟨r, hr, hlt, hexec⟩ := exec_delta hf h1 h2 rd rs3
  exact ⟨_, _, r, hexec, writesOnlyReg_setReg s rd _, hr, zext33_ofNat_toNat hlt⟩

/-- A command in range has bit 32 clear in each 32-bit operand (60_exceptions.md R233). -/
theorem bit32_clear_of_not_outOfRange {s : State} {i : Instr} (h : ¬ s.outOfRange i) {r : Reg}
    (hr : r ∈ operands32 i) : (s.reg r).getLsbD 32 = false :=
  Bool.eq_false_iff.mpr fun hset => h ⟨r, hr, hset⟩

/-- The command completes at `s`: it answers a next state and keeps STATUS and everything around the block. -/
def completes (s : State) (i : Instr) : Prop := ∃ t, exec i s = .next t ∧ s.sameStatus t ∧ s.sameBus t

section Completes

variable {s : State} {i : Instr}

theorem completes_of_setReg {rd : Reg} {v : Poly} (h : exec i s = .next (s.setReg rd v)) : completes s i :=
  ⟨_, h, ⟨rfl, rfl, rfl⟩, rfl, rfl, rfl⟩

theorem completes_of_setAcc {v : Word} (h : exec i s = .next (s.setAcc v)) : completes s i :=
  ⟨_, h, ⟨rfl, rfl, rfl⟩, rfl, rfl, rfl⟩

theorem completes_of_setWin {w : Vector Byte 4} (h : exec i s = .next (s.setWin w)) : completes s i :=
  ⟨_, h, ⟨rfl, rfl, rfl⟩, rfl, rfl, rfl⟩

end Completes

/-- A well-formed command outside the fault state, with its operands in range, completes but for DIVR by 0 and RECIP of
0 (60_exceptions.md R234). -/
theorem completes_of_no_error {s : State} {i : Instr} (hf : s.fault = false) (hwf : i.wellFormed = true)
    (hrange : ¬ s.outOfRange i) (hdivr : ∀ rd rd2 rs1 rs2, i = .divr rd rd2 rs1 rs2 → s.reg rs2 ≠ 0#33)
    (hrecip : ∀ rd rs1, i = .recip rd rs1 → s.reg rs1 ≠ 0#33) : completes s i := by
  have hclear {r : Reg} (hr : r ∈ operands32 i) : (s.reg r).getLsbD 32 = false :=
    bit32_clear_of_not_outOfRange hrange hr
  have h1 {r : Reg} {rest : List Reg} (h : operands32 i = r :: rest) : (s.reg r).getLsbD 32 = false :=
    hclear (h ▸ List.mem_cons_self)
  have h2 {r q : Reg} {rest : List Reg} (h : operands32 i = r :: q :: rest) : (s.reg q).getLsbD 32 = false :=
    hclear (h ▸ List.mem_cons_of_mem r List.mem_cons_self)
  cases i with
  | nop => exact ⟨s, exec_nop hf, ⟨rfl, rfl, rfl⟩, rfl, rfl, rfl⟩
  | ldi rd imm8 => exact completes_of_setReg (exec_ldi hf rd imm8)
  | ldg rd => exact completes_of_setReg (exec_ldg hf rd)
  | padd rd rs1 rs2 => exact completes_of_setReg (exec_padd hf rd rs1 rs2)
  | deg rd rs1 => exact completes_of_setReg (exec_deg hf rd rs1)
  | divr rd rd2 rs1 rs2 =>
    have hdivrem := divrem_of_ne_zero (poly_ne_zero_iff.mp (hdivr rd rd2 rs1 rs2 rfl)) (s.reg rs1).toNat
    exact ⟨_, exec_divr hf (bne_iff_ne.mp hwf) hdivrem, ⟨rfl, rfl, rfl⟩, rfl, rfl, rfl⟩
  | mulm rd rs1 rs2 => exact completes_of_setReg (exec_mulm hf (h1 rfl) (h2 rfl) rd)
  | powm rd rs1 rs2 => exact completes_of_setReg (exec_powm hf (h1 rfl) rd rs2)
  | recip rd rs1 =>
    obtain ⟨r, hr, -⟩ := recip_toNat_of_clear (h1 rfl) (hrecip rd rs1 rfl)
    exact completes_of_setReg (exec_recip hf (h1 rfl) hr rd)
  | crcinit => exact completes_of_setAcc (exec_crcinit hf)
  | crcbi imm8 => exact completes_of_setAcc (exec_crcbi hf imm8)
  | crcw rs1 => exact completes_of_setAcc (exec_crcw hf (h1 rfl))
  | crcset rs1 => exact completes_of_setAcc (exec_crcset hf (h1 rfl))
  | crcrd rd => exact completes_of_setReg (exec_crcrd hf rd)
  | crcraw rd => exact completes_of_setReg (exec_crcraw hf rd)
  | rev32 rd rs1 => exact completes_of_setReg (exec_rev32 hf (h1 rfl) rd)
  | delta rd rs1 rs2 rs3 =>
    obtain ⟨r, -, -, hexec⟩ := exec_delta hf (h1 rfl) (h2 rfl) rd rs3
    exact completes_of_setReg hexec
  | apply rs1 => exact completes_of_setWin (exec_apply hf (h1 rfl))
  | winld rs1 => exact completes_of_setWin (exec_winld hf (h1 rfl))
  | winrd rd => exact completes_of_setReg (exec_winrd hf rd)

/-- Settles O26: the word is dropped, illegal, or a command's; a command is out of range, has one of the two arithmetic
errors, or completes. -/
theorem firstConditionDecides : Obligations.FirstConditionDecides := by
  intro s w
  refine ⟨fun hf => ⟨_, execWord_of_fault hf w, rfl, hf, rfl⟩,
    fun hf hillegal => ⟨_, execWord_of_illegal hf hillegal, raisesOnly_raise s .illegalCommand⟩, fun i hf hd => ?_⟩
  obtain ⟨hwf, -⟩ := encodeOfDecode w i hd
  rw [execWord_of_decode hf hd]
  refine ⟨(operandRangeExactly i s hf).mpr, ?_, ?_, completes_of_no_error hf hwf⟩
  · rintro rd rd2 rs1 rs2 rfl h0
    exact ⟨_, exec_divr_zero hf (bne_iff_ne.mp hwf) rs1 h0, raisesOnly_raise s .divisionByZero⟩
  · rintro rd rs1 rfl h0
    exact ⟨_, exec_recip_zero hf rd h0, raisesOnly_raise s .noReciprocal⟩

end Sys2Proof.Machine

end
